-- ==== Sys2Proof/Word.lean ====
section
/-! DEFINITION. The word type of the machine and the two other plain bit vectors every file uses.
00_scope.md R5 (XLEN 32), R7 (`u32`, arithmetic modulo 2^32). -/

namespace Sys2Proof

/-- A `u32`: general registers, `pc`, ALU values, bus addresses and instruction words (R5, R7).
`+` and `-` of `BitVec 32` wrap modulo 2^32, as R7 demands. -/
abbrev Word := BitVec 32

/-- A byte, the smallest addressable unit of the bus (10_state.md R31). -/
abbrev Byte := BitVec 8

/-- A register number, the 5-bit index field of an instruction (10_state.md R21). -/
abbrev Reg := BitVec 5

/-- The `u32` 1 or 0 a comparison yields (R7). -/
def boolWord (b : Bool) : Word := if b then 1#32 else 0#32

end Sys2Proof
end

