-- ==== Sys2Proof/Config.lean ====
section
/-! DEFINITION. What this implementation fixes (00_scope.md R5) and the free values: constants with no
body for what no rule of the spec states. -/

namespace Sys2Proof

/-- The two devices the bus owns (20_memory.md R60, R309). -/
inductive Device where
  | rom
  | ram
  deriving DecidableEq, Repr

namespace Config

/-- `ROM_BASE`, also the reset value of `pc` (R5). -/
def romBase : Word := 0x10000000#32

/-- `RAM_BASE` (R5). -/
def ramBase : Word := 0x20000000#32

/-- `ROM_WORDS` = 2^18 and `RAM_WORDS` = 2^20 (R5, 10_state.md R38). -/
def deviceWords : Device → Nat
  | .rom => 262144
  | .ram => 1048576

/-- `ROM_BYTES` and `RAM_BYTES` (R5). -/
def deviceBytes (d : Device) : Nat := 4 * deviceWords d

/-- What an unlisted byte of a device's array reads as: in ROM the bytes of `ROM_FILL` = `0xFFFFFFFF`, which
`load` writes after the program (20_memory.md R71); in RAM 0, the reset value of 10_state.md R40
(DESIGN CHOICE, the spec's decision D2: notes/assumptions/3.md). -/
def fillByte : Device → Byte
  | .rom => 0xFF#8
  | .ram => 0x00#8

/-- `TICKS_PER_INSTRUCTION` (R5). -/
def ticksPerInstruction : Nat := 5

/-- FREE VALUE. The 16 bits a half-word read at byte offset 1 or 3 takes from the containing word; the spec
states none (20_memory.md R75, open parameter `HALF_ODD_OFFSET_POLICY`). Arguments: the device, the offset, the
containing word. notes/assumptions/6.md. -/
opaque halfOddRead : Device → BitVec 2 → Word → BitVec 16

/-- FREE VALUE. What the containing RAM word becomes after a half-word write at byte offset 1 or 3; the spec
states only that the access stays inside that word (R75). Arguments: the offset, the word before, the 16 bits
written. notes/assumptions/7.md. -/
opaque halfOddWrite : BitVec 2 → Word → BitVec 16 → Word

/-- FREE VALUE. The word at index `i` of ROM before `load`: unspecified (10_state.md R40, D12).
notes/assumptions/5.md. -/
opaque romBeforeLoad : Nat → Word

end Config

end Sys2Proof
end

