-- ==== Sys2Proof/Syntax.lean ====
section
/-! DEFINITION. The instructions: one constructor per row of spec/opcode_table.json (30_encoding.md R110 to R114,
R118). An instruction keeps EVERY bit of its word, the bits the hardware never tests too (`funct7`, `upper`,
`rest`), because decode_stage latches them (10_state.md R34) and because no bit of an encoding may be lost. -/

namespace Sys2Proof

/-! The major opcodes, instruction bits 6:0. The first five are the recognised ones (R108); the values of the
other six are from general knowledge of RISC-V and serve only to name words of no class (93 G9, PRESUMED:
notes/assumptions/20.md). -/

namespace Opcode
def aluReg : BitVec 7 := 0b0110011#7
def aluImm : BitVec 7 := 0b0010011#7
def load : BitVec 7 := 0b0000011#7
def store : BitVec 7 := 0b0100011#7
def lui : BitVec 7 := 0b0110111#7
def branch : BitVec 7 := 0b1100011#7
def jal : BitVec 7 := 0b1101111#7
def jalr : BitVec 7 := 0b1100111#7
def auipc : BitVec 7 := 0b0010111#7
def miscMem : BitVec 7 := 0b0001111#7
def system : BitVec 7 := 0b1110011#7

/-- The five recognised opcodes and the six that a row of the table names. -/
def named : List (BitVec 7) :=
  [aluReg, aluImm, load, store, lui, branch, jal, jalr, auipc, miscMem, system]
end Opcode

/-- One constructor per row of spec/opcode_table.json. Register form: `rd rs1 rs2` and bits 31:25; immediate
form and loads: `rd rs1` and the 12-bit field 31:20; immediate shifts: `rd rs1 shamt` and bits 31:25;
stores: `rs1 rs2` and the 12-bit immediate; LUI: `rd` and bits 31:12; words of no class with a row of their own:
bits 31:7; the fallback row: the whole word. -/
inductive Instr where
  | add (rd rs1 rs2 : Reg) (funct7 : BitVec 7)
  | sub (rd rs1 rs2 : Reg) (funct7 : BitVec 7)
  | sll (rd rs1 rs2 : Reg) (funct7 : BitVec 7)
  | slt (rd rs1 rs2 : Reg) (funct7 : BitVec 7)
  | sltu (rd rs1 rs2 : Reg) (funct7 : BitVec 7)
  | xor (rd rs1 rs2 : Reg) (funct7 : BitVec 7)
  | srl (rd rs1 rs2 : Reg) (funct7 : BitVec 7)
  | sra (rd rs1 rs2 : Reg) (funct7 : BitVec 7)
  | or (rd rs1 rs2 : Reg) (funct7 : BitVec 7)
  | and (rd rs1 rs2 : Reg) (funct7 : BitVec 7)
  | addi (rd rs1 : Reg) (imm : BitVec 12)
  | slti (rd rs1 : Reg) (imm : BitVec 12)
  | sltiu (rd rs1 : Reg) (imm : BitVec 12)
  | xori (rd rs1 : Reg) (imm : BitVec 12)
  | ori (rd rs1 : Reg) (imm : BitVec 12)
  | andi (rd rs1 : Reg) (imm : BitVec 12)
  | slli (rd rs1 : Reg) (shamt : BitVec 5) (upper : BitVec 7)
  | srli (rd rs1 : Reg) (shamt : BitVec 5) (upper : BitVec 7)
  | srai (rd rs1 : Reg) (shamt : BitVec 5) (upper : BitVec 7)
  | lui (rd : Reg) (imm20 : BitVec 20)
  | lb (rd rs1 : Reg) (imm : BitVec 12)
  | lh (rd rs1 : Reg) (imm : BitVec 12)
  | lw (rd rs1 : Reg) (imm : BitVec 12)
  | loadF3is3 (rd rs1 : Reg) (imm : BitVec 12)
  | lbu (rd rs1 : Reg) (imm : BitVec 12)
  | lhu (rd rs1 : Reg) (imm : BitVec 12)
  | loadF3is6 (rd rs1 : Reg) (imm : BitVec 12)
  | loadF3is7 (rd rs1 : Reg) (imm : BitVec 12)
  | sb (rs1 rs2 : Reg) (imm : BitVec 12)
  | sh (rs1 rs2 : Reg) (imm : BitVec 12)
  | sw (rs1 rs2 : Reg) (imm : BitVec 12)
  | storeF3is3 (rs1 rs2 : Reg) (imm : BitVec 12)
  | storeF3is4 (rs1 rs2 : Reg) (imm : BitVec 12)
  | storeF3is5 (rs1 rs2 : Reg) (imm : BitVec 12)
  | storeF3is6 (rs1 rs2 : Reg) (imm : BitVec 12)
  | storeF3is7 (rs1 rs2 : Reg) (imm : BitVec 12)
  | branch (rest : BitVec 25)
  | jal (rest : BitVec 25)
  | jalr (rest : BitVec 25)
  | auipc (rest : BitVec 25)
  | miscMem (rest : BitVec 25)
  | system (rest : BitVec 25)
  | unrecognized (word : Word)
  deriving DecidableEq, Repr

end Sys2Proof
end

