-- ==== Sys2Proof/WellFormed.lean ====
section
/-! DEFINITION. Which terms of `Instr` are instructions: the rows of the opcode table that split on instruction bit
30, and the fallback row that takes only what no other row takes (30_encoding.md R110, R111, R118). Every other
operand is free: its bit-vector width is its whole check. -/

namespace Sys2Proof

/-- Instruction bit 30, as the bit 5 of instruction bits 31:25. -/
def bit30 (upper : BitVec 7) : Bool := upper.getLsbD 5

/-- The check of each row: bit 30 is 0 for ADD, SRL, SRLI and 1 for SUB, SRA, SRAI; the word of the fallback row
has none of the opcodes the other rows name. -/
def Instr.wellFormed : Instr → Bool
  | .add _ _ _ funct7 => !bit30 funct7
  | .sub _ _ _ funct7 => bit30 funct7
  | .sll _ _ _ _ => true
  | .slt _ _ _ _ => true
  | .sltu _ _ _ _ => true
  | .xor _ _ _ _ => true
  | .srl _ _ _ funct7 => !bit30 funct7
  | .sra _ _ _ funct7 => bit30 funct7
  | .or _ _ _ _ => true
  | .and _ _ _ _ => true
  | .addi _ _ _ => true
  | .slti _ _ _ => true
  | .sltiu _ _ _ => true
  | .xori _ _ _ => true
  | .ori _ _ _ => true
  | .andi _ _ _ => true
  | .slli _ _ _ _ => true
  | .srli _ _ _ upper => !bit30 upper
  | .srai _ _ _ upper => bit30 upper
  | .lui _ _ => true
  | .lb _ _ _ => true
  | .lh _ _ _ => true
  | .lw _ _ _ => true
  | .loadF3is3 _ _ _ => true
  | .lbu _ _ _ => true
  | .lhu _ _ _ => true
  | .loadF3is6 _ _ _ => true
  | .loadF3is7 _ _ _ => true
  | .sb _ _ _ => true
  | .sh _ _ _ => true
  | .sw _ _ _ => true
  | .storeF3is3 _ _ _ => true
  | .storeF3is4 _ _ _ => true
  | .storeF3is5 _ _ _ => true
  | .storeF3is6 _ _ _ => true
  | .storeF3is7 _ _ _ => true
  | .branch _ => true
  | .jal _ => true
  | .jalr _ => true
  | .auipc _ => true
  | .miscMem _ => true
  | .system _ => true
  | .unrecognized word => !Opcode.named.contains (word.extractLsb' 0 7)

end Sys2Proof
end

