-- ==== Sys2Proof/Decode.lean ====
section
/-! DEFINITION. From instruction words to instructions and back: the structural fields, the immediates, the
decoder (total on every word and on every list of bytes), the encoder, and the mask and match of each row of the
opcode table. 30_encoding.md R100 to R118. -/

namespace Sys2Proof

/-! ## Fields (R101) -/

def opcodeOf (w : Word) : BitVec 7 := w.extractLsb' 0 7
def rdOf (w : Word) : Reg := w.extractLsb' 7 5
def funct3Of (w : Word) : BitVec 3 := w.extractLsb' 12 3
def rs1Of (w : Word) : Reg := w.extractLsb' 15 5
def rs2Of (w : Word) : Reg := w.extractLsb' 20 5
def funct7Of (w : Word) : BitVec 7 := w.extractLsb' 25 7

/-- Bits 31:20, the I-type field (R104). -/
def fieldI (w : Word) : BitVec 12 := w.extractLsb' 20 12

/-- Bits 31:25 above bits 11:7, the S-type field (R105; PRESUMED: notes/assumptions/9.md). -/
def fieldS (w : Word) : BitVec 12 := funct7Of w ++ rdOf w

/-- Bits 31:12, the U-type field (R106). -/
def fieldU (w : Word) : BitVec 20 := w.extractLsb' 12 20

/-- Bits 31:7, what a word of no class holds beside its opcode. -/
def fieldRest (w : Word) : BitVec 25 := w.extractLsb' 7 25

/-! ## Immediates (R104 to R107, 00_scope.md R8) -/

/-- `sext_12` (R8). -/
def sext12 (v : BitVec 12) : Word := v.signExtend 32

/-- I-type immediate (R104). -/
def immI (w : Word) : Word := sext12 (fieldI w)

/-- S-type immediate (R105). -/
def immS (w : Word) : Word := sext12 (fieldS w)

/-- U-type immediate (R106). -/
def immU (w : Word) : Word := w &&& 0xFFFFF000#32

/-- The value LUI writes, from its 20-bit field: the top 20 bits, bottom 12 zero (R106). -/
def upperImm (imm20 : BitVec 20) : Word := imm20 ++ 0#12

/-- Shift amount of an immediate shift, the same bits as `rs2addr` (R107). -/
def shamtOf (w : Word) : BitVec 5 := rs2Of w

/-! ## The decoder (R108, R110 to R114) -/

/-- Opcode `0b0110011`: `funct3`, and for `funct3` 0 and 5 bit 30, choose the operation (R110). -/
def decodeAluReg (w : Word) : Instr :=
  let f3 := funct3Of w
  let alt := bit30 (funct7Of w)
  if f3 = 0#3 then
    if alt then .sub (rdOf w) (rs1Of w) (rs2Of w) (funct7Of w) else .add (rdOf w) (rs1Of w) (rs2Of w) (funct7Of w)
  else if f3 = 1#3 then .sll (rdOf w) (rs1Of w) (rs2Of w) (funct7Of w)
  else if f3 = 2#3 then .slt (rdOf w) (rs1Of w) (rs2Of w) (funct7Of w)
  else if f3 = 3#3 then .sltu (rdOf w) (rs1Of w) (rs2Of w) (funct7Of w)
  else if f3 = 4#3 then .xor (rdOf w) (rs1Of w) (rs2Of w) (funct7Of w)
  else if f3 = 5#3 then
    if alt then .sra (rdOf w) (rs1Of w) (rs2Of w) (funct7Of w) else .srl (rdOf w) (rs1Of w) (rs2Of w) (funct7Of w)
  else if f3 = 6#3 then .or (rdOf w) (rs1Of w) (rs2Of w) (funct7Of w)
  else .and (rdOf w) (rs1Of w) (rs2Of w) (funct7Of w)

/-- Opcode `0b0010011`: `funct3` chooses (R111); the rows SRLI and SRAI split on bit 30 (R118). -/
def decodeAluImm (w : Word) : Instr :=
  let f3 := funct3Of w
  if f3 = 0#3 then .addi (rdOf w) (rs1Of w) (fieldI w)
  else if f3 = 1#3 then .slli (rdOf w) (rs1Of w) (shamtOf w) (funct7Of w)
  else if f3 = 2#3 then .slti (rdOf w) (rs1Of w) (fieldI w)
  else if f3 = 3#3 then .sltiu (rdOf w) (rs1Of w) (fieldI w)
  else if f3 = 4#3 then .xori (rdOf w) (rs1Of w) (fieldI w)
  else if f3 = 5#3 then
    if bit30 (funct7Of w) then .srai (rdOf w) (rs1Of w) (shamtOf w) (funct7Of w)
    else .srli (rdOf w) (rs1Of w) (shamtOf w) (funct7Of w)
  else if f3 = 6#3 then .ori (rdOf w) (rs1Of w) (fieldI w)
  else .andi (rdOf w) (rs1Of w) (fieldI w)

/-- Opcode `0b0000011` (R112). -/
def decodeLoad (w : Word) : Instr :=
  let f3 := funct3Of w
  if f3 = 0#3 then .lb (rdOf w) (rs1Of w) (fieldI w)
  else if f3 = 1#3 then .lh (rdOf w) (rs1Of w) (fieldI w)
  else if f3 = 2#3 then .lw (rdOf w) (rs1Of w) (fieldI w)
  else if f3 = 3#3 then .loadF3is3 (rdOf w) (rs1Of w) (fieldI w)
  else if f3 = 4#3 then .lbu (rdOf w) (rs1Of w) (fieldI w)
  else if f3 = 5#3 then .lhu (rdOf w) (rs1Of w) (fieldI w)
  else if f3 = 6#3 then .loadF3is6 (rdOf w) (rs1Of w) (fieldI w)
  else .loadF3is7 (rdOf w) (rs1Of w) (fieldI w)

/-- Opcode `0b0100011` (R112). -/
def decodeStore (w : Word) : Instr :=
  let f3 := funct3Of w
  if f3 = 0#3 then .sb (rs1Of w) (rs2Of w) (fieldS w)
  else if f3 = 1#3 then .sh (rs1Of w) (rs2Of w) (fieldS w)
  else if f3 = 2#3 then .sw (rs1Of w) (rs2Of w) (fieldS w)
  else if f3 = 3#3 then .storeF3is3 (rs1Of w) (rs2Of w) (fieldS w)
  else if f3 = 4#3 then .storeF3is4 (rs1Of w) (rs2Of w) (fieldS w)
  else if f3 = 5#3 then .storeF3is5 (rs1Of w) (rs2Of w) (fieldS w)
  else if f3 = 6#3 then .storeF3is6 (rs1Of w) (rs2Of w) (fieldS w)
  else .storeF3is7 (rs1Of w) (rs2Of w) (fieldS w)

/-- The decoder, total on all 2^32 words: no word is illegal (R114); a word no named row takes is the fallback
row's. -/
def decode (w : Word) : Instr :=
  let op := opcodeOf w
  if op = Opcode.aluReg then decodeAluReg w
  else if op = Opcode.aluImm then decodeAluImm w
  else if op = Opcode.load then decodeLoad w
  else if op = Opcode.store then decodeStore w
  else if op = Opcode.lui then .lui (rdOf w) (fieldU w)
  else if op = Opcode.branch then .branch (fieldRest w)
  else if op = Opcode.jal then .jal (fieldRest w)
  else if op = Opcode.jalr then .jalr (fieldRest w)
  else if op = Opcode.auipc then .auipc (fieldRest w)
  else if op = Opcode.miscMem then .miscMem (fieldRest w)
  else if op = Opcode.system then .system (fieldRest w)
  else .unrecognized w

/-! ## Words and bytes: big-endian (20_memory.md R70) -/

/-- Byte `o` of a word, offset 0 the most significant (R64, R70). -/
def byteOf (w : Word) (o : Nat) : Byte := (w >>> (8 * (3 - o))).setWidth 8

/-- The four bytes of a word in address order. -/
def bytesOfWord (w : Word) : List Byte := [byteOf w 0, byteOf w 1, byteOf w 2, byteOf w 3]

/-- The word four bytes make, the first at the lowest address. -/
def wordOfBytes (b0 b1 b2 b3 : Byte) : Word := b0 ++ b1 ++ b2 ++ b3

/-- Why a list of bytes is no instruction. Raised by `decodeBytes` only; a fetch always reads a whole word. Safe. -/
inductive DecodeError where
  /-- Fewer than four bytes are left (R100: an instruction is one 32-bit word). -/
  | fewerThanFourBytes
  deriving DecidableEq, Repr

/-- The decoder on bytes as they lie in memory: the instruction and the bytes after it. -/
def decodeBytes : List Byte → Except DecodeError (Instr × List Byte)
  | b0 :: b1 :: b2 :: b3 :: rest => .ok (decode (wordOfBytes b0 b1 b2 b3), rest)
  | [] => .error .fewerThanFourBytes
  | [_] => .error .fewerThanFourBytes
  | [_, _] => .error .fewerThanFourBytes
  | [_, _, _] => .error .fewerThanFourBytes

/-- The word of an instruction whose low `nbits` bits are those of `w` and whose other bits are 0. -/
def tableWord (nbits w : Nat) : Word := BitVec.ofNat 32 (w % 2 ^ nbits)

/-- What the decoder reads from an opcode-table word, laid out as the memory stores it. -/
def decodeTableWord (nbits w : Nat) : Option Instr :=
  match decodeBytes (bytesOfWord (tableWord nbits w)) with
  | .ok (i, _) => some i
  | .error _ => none

/-! ## The encoder (R102) -/

def encodeR (funct7 : BitVec 7) (rs2 rs1 : Reg) (funct3 : BitVec 3) (rd : Reg) (opcode : BitVec 7) : Word :=
  funct7 ++ rs2 ++ rs1 ++ funct3 ++ rd ++ opcode

def encodeI (imm : BitVec 12) (rs1 : Reg) (funct3 : BitVec 3) (rd : Reg) (opcode : BitVec 7) : Word :=
  imm ++ rs1 ++ funct3 ++ rd ++ opcode

def encodeS (imm : BitVec 12) (rs2 rs1 : Reg) (funct3 : BitVec 3) : Word :=
  imm.extractLsb' 5 7 ++ rs2 ++ rs1 ++ funct3 ++ imm.extractLsb' 0 5 ++ Opcode.store

def encodeU (imm20 : BitVec 20) (rd : Reg) (opcode : BitVec 7) : Word :=
  imm20 ++ rd ++ opcode

def encodeRest (rest : BitVec 25) (opcode : BitVec 7) : Word :=
  rest ++ opcode

/-- The word of an instruction. -/
def encode : Instr → Word
  | .add rd rs1 rs2 funct7 => encodeR funct7 rs2 rs1 0#3 rd Opcode.aluReg
  | .sub rd rs1 rs2 funct7 => encodeR funct7 rs2 rs1 0#3 rd Opcode.aluReg
  | .sll rd rs1 rs2 funct7 => encodeR funct7 rs2 rs1 1#3 rd Opcode.aluReg
  | .slt rd rs1 rs2 funct7 => encodeR funct7 rs2 rs1 2#3 rd Opcode.aluReg
  | .sltu rd rs1 rs2 funct7 => encodeR funct7 rs2 rs1 3#3 rd Opcode.aluReg
  | .xor rd rs1 rs2 funct7 => encodeR funct7 rs2 rs1 4#3 rd Opcode.aluReg
  | .srl rd rs1 rs2 funct7 => encodeR funct7 rs2 rs1 5#3 rd Opcode.aluReg
  | .sra rd rs1 rs2 funct7 => encodeR funct7 rs2 rs1 5#3 rd Opcode.aluReg
  | .or rd rs1 rs2 funct7 => encodeR funct7 rs2 rs1 6#3 rd Opcode.aluReg
  | .and rd rs1 rs2 funct7 => encodeR funct7 rs2 rs1 7#3 rd Opcode.aluReg
  | .addi rd rs1 imm => encodeI imm rs1 0#3 rd Opcode.aluImm
  | .slti rd rs1 imm => encodeI imm rs1 2#3 rd Opcode.aluImm
  | .sltiu rd rs1 imm => encodeI imm rs1 3#3 rd Opcode.aluImm
  | .xori rd rs1 imm => encodeI imm rs1 4#3 rd Opcode.aluImm
  | .ori rd rs1 imm => encodeI imm rs1 6#3 rd Opcode.aluImm
  | .andi rd rs1 imm => encodeI imm rs1 7#3 rd Opcode.aluImm
  | .slli rd rs1 shamt upper => encodeR upper shamt rs1 1#3 rd Opcode.aluImm
  | .srli rd rs1 shamt upper => encodeR upper shamt rs1 5#3 rd Opcode.aluImm
  | .srai rd rs1 shamt upper => encodeR upper shamt rs1 5#3 rd Opcode.aluImm
  | .lui rd imm20 => encodeU imm20 rd Opcode.lui
  | .lb rd rs1 imm => encodeI imm rs1 0#3 rd Opcode.load
  | .lh rd rs1 imm => encodeI imm rs1 1#3 rd Opcode.load
  | .lw rd rs1 imm => encodeI imm rs1 2#3 rd Opcode.load
  | .loadF3is3 rd rs1 imm => encodeI imm rs1 3#3 rd Opcode.load
  | .lbu rd rs1 imm => encodeI imm rs1 4#3 rd Opcode.load
  | .lhu rd rs1 imm => encodeI imm rs1 5#3 rd Opcode.load
  | .loadF3is6 rd rs1 imm => encodeI imm rs1 6#3 rd Opcode.load
  | .loadF3is7 rd rs1 imm => encodeI imm rs1 7#3 rd Opcode.load
  | .sb rs1 rs2 imm => encodeS imm rs2 rs1 0#3
  | .sh rs1 rs2 imm => encodeS imm rs2 rs1 1#3
  | .sw rs1 rs2 imm => encodeS imm rs2 rs1 2#3
  | .storeF3is3 rs1 rs2 imm => encodeS imm rs2 rs1 3#3
  | .storeF3is4 rs1 rs2 imm => encodeS imm rs2 rs1 4#3
  | .storeF3is5 rs1 rs2 imm => encodeS imm rs2 rs1 5#3
  | .storeF3is6 rs1 rs2 imm => encodeS imm rs2 rs1 6#3
  | .storeF3is7 rs1 rs2 imm => encodeS imm rs2 rs1 7#3
  | .branch rest => encodeRest rest Opcode.branch
  | .jal rest => encodeRest rest Opcode.jal
  | .jalr rest => encodeRest rest Opcode.jalr
  | .auipc rest => encodeRest rest Opcode.auipc
  | .miscMem rest => encodeRest rest Opcode.miscMem
  | .system rest => encodeRest rest Opcode.system
  | .unrecognized word => word

/-! ## The opcode table's rows (R110 to R112, R118) -/

/-- `(mask, match)` of an instruction's row: the bits the hardware tests. A word `w` selects a row when
`w &&& mask = match`; the fallback row has mask 0 and takes what no other row takes. -/
def rowOf : Instr → Word × Word
  | .add _ _ _ _ => (0x4000707F#32, 0x00000033#32)
  | .sub _ _ _ _ => (0x4000707F#32, 0x40000033#32)
  | .sll _ _ _ _ => (0x0000707F#32, 0x00001033#32)
  | .slt _ _ _ _ => (0x0000707F#32, 0x00002033#32)
  | .sltu _ _ _ _ => (0x0000707F#32, 0x00003033#32)
  | .xor _ _ _ _ => (0x0000707F#32, 0x00004033#32)
  | .srl _ _ _ _ => (0x4000707F#32, 0x00005033#32)
  | .sra _ _ _ _ => (0x4000707F#32, 0x40005033#32)
  | .or _ _ _ _ => (0x0000707F#32, 0x00006033#32)
  | .and _ _ _ _ => (0x0000707F#32, 0x00007033#32)
  | .addi _ _ _ => (0x0000707F#32, 0x00000013#32)
  | .slti _ _ _ => (0x0000707F#32, 0x00002013#32)
  | .sltiu _ _ _ => (0x0000707F#32, 0x00003013#32)
  | .xori _ _ _ => (0x0000707F#32, 0x00004013#32)
  | .ori _ _ _ => (0x0000707F#32, 0x00006013#32)
  | .andi _ _ _ => (0x0000707F#32, 0x00007013#32)
  | .slli _ _ _ _ => (0x0000707F#32, 0x00001013#32)
  | .srli _ _ _ _ => (0x4000707F#32, 0x00005013#32)
  | .srai _ _ _ _ => (0x4000707F#32, 0x40005013#32)
  | .lui _ _ => (0x0000007F#32, 0x00000037#32)
  | .lb _ _ _ => (0x0000707F#32, 0x00000003#32)
  | .lh _ _ _ => (0x0000707F#32, 0x00001003#32)
  | .lw _ _ _ => (0x0000707F#32, 0x00002003#32)
  | .loadF3is3 _ _ _ => (0x0000707F#32, 0x00003003#32)
  | .lbu _ _ _ => (0x0000707F#32, 0x00004003#32)
  | .lhu _ _ _ => (0x0000707F#32, 0x00005003#32)
  | .loadF3is6 _ _ _ => (0x0000707F#32, 0x00006003#32)
  | .loadF3is7 _ _ _ => (0x0000707F#32, 0x00007003#32)
  | .sb _ _ _ => (0x0000707F#32, 0x00000023#32)
  | .sh _ _ _ => (0x0000707F#32, 0x00001023#32)
  | .sw _ _ _ => (0x0000707F#32, 0x00002023#32)
  | .storeF3is3 _ _ _ => (0x0000707F#32, 0x00003023#32)
  | .storeF3is4 _ _ _ => (0x0000707F#32, 0x00004023#32)
  | .storeF3is5 _ _ _ => (0x0000707F#32, 0x00005023#32)
  | .storeF3is6 _ _ _ => (0x0000707F#32, 0x00006023#32)
  | .storeF3is7 _ _ _ => (0x0000707F#32, 0x00007023#32)
  | .branch _ => (0x0000007F#32, 0x00000063#32)
  | .jal _ => (0x0000007F#32, 0x0000006F#32)
  | .jalr _ => (0x0000007F#32, 0x00000067#32)
  | .auipc _ => (0x0000007F#32, 0x00000017#32)
  | .miscMem _ => (0x0000007F#32, 0x0000000F#32)
  | .system _ => (0x0000007F#32, 0x00000073#32)
  | .unrecognized _ => (0x00000000#32, 0x00000000#32)

end Sys2Proof
end

