-- ==== Sys2Proof/Machine/State.lean ====
section
/-! DEFINITION. The complete state of the machine, as plain data, and its value after reset. 10_state.md R20 to R44.
Every item of R20 (b) and (c) is a clocked cell with its two values; cells are typed by the widths R34 to R36 state
(R39, D16). -/

namespace Sys2Proof.Machine

/-- The `clocked_cell_primitive` (40_pipeline_stages.md R130): `committed` is the register's output, `staged` the
value the next commit captures. -/
structure ClockedCell (α : Type) where
  committed : α
  staged : α
  deriving DecidableEq, Repr

/-- The active-stage selector's five values (R32). -/
inductive Stage where
  | IF
  | DE
  | EX
  | MEM
  | WB
  deriving DecidableEq, Repr

/-- `fetch_stage` (R33). -/
structure FetchCells where
  pc : ClockedCell Word
  inst : ClockedCell Word
  deriving DecidableEq, Repr

/-- `decode_stage` (R34). -/
structure DecodeCells where
  inst : ClockedCell Word
  opcode : ClockedCell (BitVec 7)
  rd : ClockedCell Reg
  funct3 : ClockedCell (BitVec 3)
  rs1 : ClockedCell Word
  rs2 : ClockedCell Word
  shamt : ClockedCell (BitVec 5)
  funct7 : ClockedCell (BitVec 7)
  imm32 : ClockedCell Word
  isAluOp : ClockedCell Bool
  isStore : ClockedCell Bool
  isLoad : ClockedCell Bool
  isLUI : ClockedCell Bool
  deriving DecidableEq, Repr

/-- `execute_stage` (R35). -/
structure ExecuteCells where
  aluResult : ClockedCell Word
  rd : ClockedCell Reg
  isAluOp : ClockedCell Bool
  isLoad : ClockedCell Bool
  isLUI : ClockedCell Bool
  isStore : ClockedCell Bool
  rs1 : ClockedCell Word
  rs2 : ClockedCell Word
  funct3 : ClockedCell (BitVec 3)
  imm32 : ClockedCell Word
  deriving DecidableEq, Repr

/-- `memory_access_stage` (R36). -/
structure MemoryCells where
  writebackValue : ClockedCell Word
  rd : ClockedCell Reg
  isAluOp : ClockedCell Bool
  isLoad : ClockedCell Bool
  isLUI : ClockedCell Bool
  isStore : ClockedCell Bool
  deriving DecidableEq, Repr

/-- The content of a device's array: `(device-local byte address, byte)` pairs in one canonical form (`Memory.wf`):
addresses strictly rising, no byte equal to what an unlisted address reads as (`Config.fillByte`). Word `i` of the
array is the bytes `4i` to `4i+3`, most significant first (R38, 20_memory.md R70). -/
abbrev Memory := List Host.Cell

/-- The machine's state (R20). `RF` is `register_file_staged` (R21); `write_back_stage` has no cell (R37). -/
structure State where
  sel : Stage
  F : FetchCells
  D : DecodeCells
  E : ExecuteCells
  M : MemoryCells
  RF : Vector (ClockedCell Word) 32
  ROM : Memory
  RAM : Memory
  /-- The one-time `load` of 70_reset_and_hazards.md R332 has been made; before it ROM's content is unspecified (R40,
  D12) and `ROM` is not read. -/
  romLoaded : Bool
  deriving DecidableEq, Repr

/-- Why the machine stops with a fault: never. The hardware raises no exception for any word, operand or address
(60_exceptions.md R300), so this closed inductive has no constructor. -/
inductive Fault where
  deriving DecidableEq, Repr

/-- Why there is no next state. No instruction's meaning raises any of these. -/
inductive Refusal where
  /-- An instruction that has no meaning yet. Raised by `exec`'s refused arms, of which there are none. Safe. -/
  | notModelled (mnemonic : String)
  /-- A tick before the one-time `load`: "the model refuses such a launch" (R332, D12). Raised by `step`, `hostCycle`.
  Safe. -/
  | launchBeforeLoad
  /-- A second `load`: outside the spec ("one-time", R332, D12). Raised by `hostLoad`. Safe. -/
  | secondLoad
  /-- A `load` of more than 262144 words: refused (R340, D12). Raised by `hostLoad`. Safe. -/
  | loadTooLong
  deriving DecidableEq, Repr

/-- A cell after construction with initial value `v`, and after any commit: both values equal (R130). -/
def ClockedCell.init {α : Type} (v : α) : ClockedCell α := { committed := v, staged := v }

/-- The machine right after construction (R40, R330): `pc` = `0x10000000`, `sel` = IF, every other cell and register 0
(the spec's decision D2: notes/assumptions/1.md, 2.md, 4.md), RAM all 0 (3.md), ROM not loaded (5.md). -/
def State.reset : State where
  sel := .IF
  F := { pc := .init Config.romBase, inst := .init 0#32 }
  D :=
    { inst := .init 0#32, opcode := .init 0#7, rd := .init 0#5, funct3 := .init 0#3, rs1 := .init 0#32,
      rs2 := .init 0#32, shamt := .init 0#5, funct7 := .init 0#7, imm32 := .init 0#32, isAluOp := .init false,
      isStore := .init false, isLoad := .init false, isLUI := .init false }
  E :=
    { aluResult := .init 0#32, rd := .init 0#5, isAluOp := .init false, isLoad := .init false,
      isLUI := .init false, isStore := .init false, rs1 := .init 0#32, rs2 := .init 0#32, funct3 := .init 0#3,
      imm32 := .init 0#32 }
  M :=
    { writebackValue := .init 0#32, rd := .init 0#5, isAluOp := .init false, isLoad := .init false,
      isLUI := .init false, isStore := .init false }
  RF := Vector.replicate 32 (.init 0#32)
  ROM := []
  RAM := []
  romLoaded := false

end Sys2Proof.Machine
end

