-- ==== Sys2Proof/Machine/Ops.lean ====
section
/-! DEFINITION. The named operations every stage and every meaning is written over: clocked cells, the register file,
the devices, the bus, the commit phase and the fetch. 40_pipeline_stages.md R130 to R140, 20_memory.md R60 to R86.
Taking an exception and returning from one are absent because the hardware has neither (60_exceptions.md R300, R304,
R305). -/

namespace Sys2Proof.Machine

/-! ## clocked_cell_primitive (R131) -/

/-- `set(v)`: writes `staged`, leaves `committed` alone. -/
def ClockedCell.set {α : Type} (c : ClockedCell α) (v : α) : ClockedCell α := { c with staged := v }

/-- `value()`: the committed value. -/
def ClockedCell.value {α : Type} (c : ClockedCell α) : α := c.committed

/-- `commit()`: `committed <- staged`. -/
def ClockedCell.commit {α : Type} (c : ClockedCell α) : ClockedCell α := { c with committed := c.staged }

/-! ## register_file_staged (R170) -/

/-- The committed value of cell `RF[i]`, index 0 not special (10_state.md R24). -/
def rfValue (s : State) (i : Reg) : Word := (s.RF[i.toNat]'i.isLt).value

/-- The operand value `x[i]`: 0 for index 0, otherwise the committed value (R22). -/
def operand (s : State) (i : Reg) : Word := if i = 0#5 then 0#32 else rfValue s i

/-- `set(v)` on cell `RF[i]`, for every `i` including 0 (R23). -/
def rfStage (s : State) (i : Reg) (v : Word) : State :=
  { s with RF := s.RF.set i.toNat ((s.RF[i.toNat]'i.isLt).set v) i.isLt }

/-! ## The commit phase (R137) -/

def FetchCells.commit (c : FetchCells) : FetchCells := { pc := c.pc.commit, inst := c.inst.commit }

def DecodeCells.commit (c : DecodeCells) : DecodeCells :=
  { inst := c.inst.commit, opcode := c.opcode.commit, rd := c.rd.commit, funct3 := c.funct3.commit,
    rs1 := c.rs1.commit, rs2 := c.rs2.commit, shamt := c.shamt.commit, funct7 := c.funct7.commit,
    imm32 := c.imm32.commit, isAluOp := c.isAluOp.commit, isStore := c.isStore.commit,
    isLoad := c.isLoad.commit, isLUI := c.isLUI.commit }

def ExecuteCells.commit (c : ExecuteCells) : ExecuteCells :=
  { aluResult := c.aluResult.commit, rd := c.rd.commit, isAluOp := c.isAluOp.commit,
    isLoad := c.isLoad.commit, isLUI := c.isLUI.commit, isStore := c.isStore.commit, rs1 := c.rs1.commit,
    rs2 := c.rs2.commit, funct3 := c.funct3.commit, imm32 := c.imm32.commit }

def MemoryCells.commit (c : MemoryCells) : MemoryCells :=
  { writebackValue := c.writebackValue.commit, rd := c.rd.commit, isAluOp := c.isAluOp.commit,
    isLoad := c.isLoad.commit, isLUI := c.isLUI.commit, isStore := c.isStore.commit }

/-- Every cell of the four stateful stages and all 32 register cells commit; the arrays and the selector do not
(R137). -/
def commitPhase (s : State) : State :=
  { s with
    F := s.F.commit
    D := s.D.commit
    E := s.E.commit
    M := s.M.commit
    RF := s.RF.map ClockedCell.commit }

/-! ## Device arrays -/

/-- The byte at `a`: the listed one, else `fill`. -/
def Memory.read (fill : Byte) : Memory → Nat → Byte
  | [], _ => fill
  | (k, v) :: rest, a => if a = k then v else Memory.read fill rest a

/-- Writes `b` at `a`, keeping the canonical form: writing `fill` removes the entry. -/
def Memory.write (fill : Byte) : Memory → Nat → Byte → Memory
  | [], a, b => if b = fill then [] else [(a, b)]
  | (k, v) :: rest, a, b =>
    if a < k then (if b = fill then (k, v) :: rest else (a, b) :: (k, v) :: rest)
    else if a = k then (if b = fill then rest else (a, b) :: rest)
    else (k, v) :: Memory.write fill rest a b

/-- The canonical form from address `lo` on. -/
def Memory.wfFrom (fill : Byte) (size : Nat) : Nat → Memory → Bool
  | _, [] => true
  | lo, (k, v) :: rest => decide (lo ≤ k) && decide (k < size) && (v != fill) && Memory.wfFrom fill size (k + 1) rest

/-- The canonical form: addresses strictly rising and inside the device, no entry equal to the fill byte. -/
def Memory.wf (d : Device) (m : Memory) : Bool := Memory.wfFrom (Config.fillByte d) (Config.deviceBytes d) 0 m

/-- Word `i` of an array (10_state.md R38). -/
def Memory.word (fill : Byte) (m : Memory) (i : Nat) : Word :=
  wordOfBytes (Memory.read fill m (4 * i)) (Memory.read fill m (4 * i + 1)) (Memory.read fill m (4 * i + 2))
    (Memory.read fill m (4 * i + 3))

/-- `DEV[i] <- w`. -/
def Memory.setWord (fill : Byte) (m : Memory) (i : Nat) (w : Word) : Memory :=
  Memory.write fill
    (Memory.write fill
      (Memory.write fill (Memory.write fill m (4 * i) (byteOf w 0)) (4 * i + 1) (byteOf w 1))
      (4 * i + 2) (byteOf w 2))
    (4 * i + 3) (byteOf w 3)

/-- `DEV[i]`: the array's word; ROM's is a free value before `load` (R40, notes/assumptions/5.md). -/
def deviceWord (s : State) (d : Device) (i : Nat) : Word :=
  match d with
  | .rom => if s.romLoaded then Memory.word (Config.fillByte .rom) s.ROM i else Config.romBeforeLoad i
  | .ram => Memory.word (Config.fillByte .ram) s.RAM i

/-- `RAM[i] <- w`. -/
def setRamWord (s : State) (i : Nat) (w : Word) : State :=
  { s with RAM := Memory.setWord (Config.fillByte .ram) s.RAM i w }

/-! ## Devices (R63 to R69) -/

/-- The width selector: byte = 0, half-word = 1, word = 2, and no fourth value (R60, R86, D15). -/
inductive Width where
  | byte
  | half
  | word
  deriving DecidableEq, Repr

/-- The low 28 bits of a bus address (R61). -/
def localOf (a : Word) : BitVec 28 := a.extractLsb' 0 28

/-- `index(local)`: the word index, masked into the array (R63). -/
def wordIndex (d : Device) (loc : BitVec 28) : Nat := (loc.toNat / 4) % Config.deviceWords d

/-- `offset(local)` (R63). -/
def byteOffset (loc : BitVec 28) : BitVec 2 := loc.extractLsb' 0 2

/-- What a read of width `wd` at byte offset `o` takes from the containing word `w` (R64 to R66). At offsets 1 and 3 a
half-word is a free 16-bit value (R75, notes/assumptions/6.md). -/
def sliceRead (d : Device) (o : BitVec 2) (wd : Width) (w : Word) : Word :=
  match wd with
  | .byte => (w >>> (8 * (3 - o.toNat))) &&& 0xFF#32
  | .half =>
    if o = 0#2 then w >>> 16
    else if o = 2#2 then w &&& 0xFFFF#32
    else (Config.halfOddRead d o w).setWidth 32
  | .word => w

/-- What the containing word `w` becomes when `v` is written with width `wd` at byte offset `o` (R67 to R69). At
offsets 1 and 3 a half-word write leaves a free word (R75, notes/assumptions/7.md). -/
def sliceWrite (o : BitVec 2) (wd : Width) (w v : Word) : Word :=
  match wd with
  | .byte =>
    let sh := 8 * (3 - o.toNat)
    (w &&& ~~~(0xFF#32 <<< sh)) ||| ((v &&& 0xFF#32) <<< sh)
  | .half =>
    if o = 0#2 then v.extractLsb' 0 16 ++ w.extractLsb' 0 16
    else if o = 2#2 then w.extractLsb' 16 16 ++ v.extractLsb' 0 16
    else Config.halfOddWrite o w (v.extractLsb' 0 16)
  | .word => v

/-- `DevRead` (R64 to R66). -/
def devRead (s : State) (d : Device) (loc : BitVec 28) (wd : Width) : Word :=
  sliceRead d (byteOffset loc) wd (deviceWord s d (wordIndex d loc))

/-- `DevWrite`, which only RAM is reached by (R67 to R69): a read-modify-write of the containing word. -/
def devWriteRam (s : State) (loc : BitVec 28) (v : Word) (wd : Width) : State :=
  let i := wordIndex .ram loc
  setRamWord s i (sliceWrite (byteOffset loc) wd (deviceWord s .ram i) v)

/-! ## bus_router (R60 to R62) -/

/-- Which device answers a bus address: top nibble 1 is ROM, 2 is RAM, any other is nothing (R61, R78). -/
def route (a : Word) : Option Device :=
  if a.extractLsb' 28 4 = 1#4 then some .rom
  else if a.extractLsb' 28 4 = 2#4 then some .ram
  else none

/-- `BusRead(address, width)` (R61). -/
def busRead (s : State) (a : Word) (wd : Width) : Word :=
  match route a with
  | some d => devRead s d (localOf a) wd
  | none => 0#32

/-- `BusWrite(address, value, width)`: only RAM is written; any other write is discarded (R62). -/
def busWrite (s : State) (a v : Word) (wd : Width) : State :=
  match route a with
  | some .ram => devWriteRam s (localOf a) v wd
  | some .rom => s
  | none => s

/-! ## Fetch -/

/-- The word at `pc` (R140, R100). -/
def fetchWord (s : State) : Word := busRead s s.F.pc.value .word

/-- The state after the Fetch tick that fetched `w`: `F.inst` = `w`, `pc` advanced by 4, every other cell committed
(R140, R137; at a boundary state that commit changes nothing, 10_state.md R41). -/
def fetched (w : Word) (s : State) : State :=
  { commitPhase s with F := { pc := .init (s.F.pc.value + 4#32), inst := .init w } }

/-! ## Placing an instruction where the next step fetches it -/

/-- `s` with `w` as the word the next Fetch tick reads: the fetch is due (`sel` = IF), the ROM loaded, and the word
in the array that answers `pc`; where nothing answers `pc` (such a fetch reads 0, R73), `pc` at the ROM base.
notes/assumptions/24.md. -/
def placeWord (s : State) (w : Word) : State :=
  match route s.F.pc.value with
  | some .rom =>
    { s with
      sel := .IF
      romLoaded := true
      ROM := Memory.setWord (Config.fillByte .rom) s.ROM (wordIndex .rom (localOf s.F.pc.value)) w }
  | some .ram =>
    { s with
      sel := .IF
      romLoaded := true
      RAM := Memory.setWord (Config.fillByte .ram) s.RAM (wordIndex .ram (localOf s.F.pc.value)) w }
  | none =>
    { s with
      sel := .IF
      romLoaded := true
      F := { s.F with pc := .init Config.romBase }
      ROM := Memory.setWord (Config.fillByte .rom) s.ROM 0 w }

end Sys2Proof.Machine
end

