-- ==== Sys2Proof/Machine/Flags.lean ====
section
/-! DEFINITION. Flags. The hardware has no status flag and no condition code (10_state.md R28); the flags here are the
class flags decode_stage computes and execute_stage re-derives, and the two bits execute_stage derives from the latched
cells. 30_encoding.md R108, 40_pipeline_stages.md R147, R150. -/

namespace Sys2Proof.Machine

/-- `isAluOp`: true for the two ALU opcodes, which the mask conflates (R108). -/
def isAluOp (opcode : BitVec 7) : Bool := (opcode &&& 0b1011111#7) == 0b0010011#7

def isStore (opcode : BitVec 7) : Bool := opcode == 0b0100011#7

def isLoad (opcode : BitVec 7) : Bool := opcode == 0b0000011#7

def isLUI (opcode : BitVec 7) : Bool := opcode == 0b0110111#7

/-- `isRegisterOp`: bit 5 of the opcode (R150). -/
def isRegisterOp (opcode : BitVec 7) : Bool := opcode.getLsbD 5

/-- `isAlternate`: bit 10 of the immediate field, which is instruction bit 30 (R150, D4). -/
def isAlternate (imm32 : Word) : Bool := imm32.getLsbD 10

end Sys2Proof.Machine
end

