-- ==== Sys2Proof/Machine/Operands.lean ====
section
/-! DEFINITION. Operand forms and what is computed from operands: the effective address, the shift amount, the load
extensions, the store masks, and the function `alu_rv32i`. 00_scope.md R7, R8; 40_pipeline_stages.md R151, R155 to
R157. -/

namespace Sys2Proof.Machine

/-- The shift amount of a register-form shift: the low 5 bits of the operand value (30_encoding.md R107). -/
def shiftAmount (b : Word) : Nat := (b &&& 0x1F#32).toNat

/-- Base plus sign-extended displacement, modulo 2^32 (R155). -/
def effectiveAddress (s : State) (rs1 : Reg) (imm : BitVec 12) : Word := operand s rs1 + sext12 imm

/-- `sext_8` (R8). -/
def sext8 (v : Word) : Word := (v.setWidth 8).signExtend 32

/-- `sext_16` (R8). -/
def sext16 (v : Word) : Word := (v.setWidth 16).signExtend 32

/-- `zext_8` (R8). -/
def zext8 (v : Word) : Word := (v.setWidth 8).setWidth 32

/-- `zext_16` (R8). -/
def zext16 (v : Word) : Word := (v.setWidth 16).setWidth 32

/-- A stored value masked to the access width (R156). -/
def storeMask (wd : Width) (v : Word) : Word :=
  match wd with
  | .byte => v &&& 0xFF#32
  | .half => v &&& 0xFFFF#32
  | .word => v

/-- `alu_rv32i` (R151). The immediate form never subtracts and never shifts arithmetically. -/
def alu (funct3 : BitVec 3) (registerOp alternate : Bool) (a b immA : Word) (shamt : BitVec 5) : Word :=
  if funct3 = 0#3 then
    if registerOp then (if alternate then a - b else a + b) else a + immA
  else if funct3 = 1#3 then
    if registerOp then a <<< shiftAmount b else a <<< shamt.toNat
  else if funct3 = 2#3 then
    if registerOp then boolWord (a.slt b) else boolWord (a.slt immA)
  else if funct3 = 3#3 then
    if registerOp then boolWord (a.ult b) else boolWord (a.ult immA)
  else if funct3 = 4#3 then
    if registerOp then a ^^^ b else a ^^^ immA
  else if funct3 = 5#3 then
    if registerOp then (if alternate then a.sshiftRight (shiftAmount b) else a >>> shiftAmount b)
    else a >>> shamt.toNat
  else if funct3 = 6#3 then
    if registerOp then a ||| b else a ||| immA
  else
    if registerOp then a &&& b else a &&& immA

/-- What execute_stage latches as `aluResult` for the committed Decode cells, whatever the class (R150, R152, D6). -/
def aluOfCells (c : DecodeCells) : Word :=
  alu c.funct3.value (isRegisterOp c.opcode.value) (isAlternate c.imm32.value) c.rs1.value c.rs2.value
    (sext12 (c.imm32.value.extractLsb' 0 12)) c.shamt.value

end Sys2Proof.Machine
end

