-- ==== Sys2Proof/Machine/Retire.lean ====
section
/-! DEFINITION. The instruction level: what five ticks leave behind, once per class, over the state `fetched` gives.
Every meaning of the families calls one of these with the value or the memory effect its own rule states.
40_pipeline_stages.md R175, R180, and the cells R145 to R161 latch on the way. -/

namespace Sys2Proof.Machine

/-- What every meaning answers. -/
abbrev Result := Host.Outcome State Fault Refusal

/-- A word's class (30_encoding.md R108). -/
inductive InstrClass where
  | alu
  | store
  | load
  | lui
  | noClass
  deriving DecidableEq, Repr

/-- The Decode cells after the Decode tick of an instruction of class `c` with immediate `imm` (R145 to R148). -/
def latchDecode (c : InstrClass) (imm : Word) (s : State) : State :=
  let w := s.F.inst.value
  { s with
    D :=
      { inst := .init w
        opcode := .init (opcodeOf w)
        rd := .init (rdOf w)
        funct3 := .init (funct3Of w)
        rs1 := .init (operand s (rs1Of w))
        rs2 := .init (operand s (rs2Of w))
        shamt := .init (shamtOf w)
        funct7 := .init (funct7Of w)
        imm32 := .init imm
        isAluOp := .init (c == .alu)
        isStore := .init (c == .store)
        isLoad := .init (c == .load)
        isLUI := .init (c == .lui) } }

/-- The Execute cells after the Execute tick that latched `aluResult` = `v` (R152). -/
def latchExecute (v : Word) (s : State) : State :=
  { s with
    E :=
      { aluResult := .init v
        rd := .init s.D.rd.value
        isAluOp := .init s.D.isAluOp.value
        isLoad := .init s.D.isLoad.value
        isLUI := .init s.D.isLUI.value
        isStore := .init s.D.isStore.value
        rs1 := .init s.D.rs1.value
        rs2 := .init s.D.rs2.value
        funct3 := .init s.D.funct3.value
        imm32 := .init s.D.imm32.value } }

/-- The MemoryAccess cells after the MemoryAccess tick that left `writebackValue` = `v` (R156 to R161). -/
def latchMemory (v : Word) (s : State) : State :=
  { s with
    M :=
      { writebackValue := .init v
        rd := .init s.E.rd.value
        isAluOp := .init s.E.isAluOp.value
        isLoad := .init s.E.isLoad.value
        isLUI := .init s.E.isLUI.value
        isStore := .init s.E.isStore.value } }

/-- `x[rd] <- v`, committed, for every `rd` including 0 (00_scope.md R9 (b), 10_state.md R23). -/
def writeRegister (rd : Reg) (v : Word) (s : State) : State :=
  { s with RF := s.RF.set rd.toNat (.init v) rd.isLt }

/-- The selector back at Fetch after five ticks (R175). -/
def atBoundary (s : State) : State := { s with sel := .IF }

/-- An ALU operation whose result is `v` (R159, R165, R200, R220). -/
def retireAlu (rd : Reg) (v : Word) (s : State) : State :=
  atBoundary (writeRegister rd v (latchMemory v (latchExecute v (latchDecode .alu (immI s.F.inst.value) s))))

/-- The Decode and Execute cells of an instruction whose ALU result nothing reads (R152, D6). -/
def issue (c : InstrClass) (imm : Word) (s : State) : State :=
  let t := latchDecode c imm s
  latchExecute (aluOfCells t.D) t

/-- LUI with value `v` (R158, R165, R240). -/
def retireLui (rd : Reg) (v : Word) (s : State) : State :=
  atBoundary (writeRegister rd v (latchMemory v (issue .lui v s)))

/-- A load that leaves `writebackValue` = `v`, freshly loaded or held (R157, R165, R250). -/
def retireLoad (rd : Reg) (v : Word) (s : State) : State :=
  atBoundary (writeRegister rd v (latchMemory v (issue .load (immI s.F.inst.value) s)))

/-- A store, but for its bus write: no register written, `writebackValue` holds (R156, R165, R270). -/
def retireStore (s : State) : State :=
  atBoundary (latchMemory s.M.writebackValue.value (issue .store (immS s.F.inst.value) s))

/-- A word of no class: nothing but `pc` and the latches; `imm32` and `writebackValue` hold (R160, R285). -/
def retireNoClass (s : State) : State :=
  atBoundary (latchMemory s.M.writebackValue.value (issue .noClass s.D.imm32.value s))

end Sys2Proof.Machine
end

