-- ==== Sys2Proof/Machine/AluImmediate.lean ====
section
/-! DEFINITION. The register-immediate ALU instructions, opcode `0b0010011`. 42_alu_immediate.md R220 to R229. -/

namespace Sys2Proof.Machine

/-- ADDI (R221): never a subtraction. -/
def execAddi (rd rs1 : Reg) (imm : BitVec 12) (s : State) : Result :=
  let s := fetched (encode (.addi rd rs1 imm)) s
  .next (retireAlu rd (operand s rs1 + sext12 imm) s)

/-- SLTI (R222): signed comparison. -/
def execSlti (rd rs1 : Reg) (imm : BitVec 12) (s : State) : Result :=
  let s := fetched (encode (.slti rd rs1 imm)) s
  .next (retireAlu rd (boolWord ((operand s rs1).slt (sext12 imm))) s)

/-- SLTIU (R223): the sign-extended immediate read as unsigned. -/
def execSltiu (rd rs1 : Reg) (imm : BitVec 12) (s : State) : Result :=
  let s := fetched (encode (.sltiu rd rs1 imm)) s
  .next (retireAlu rd (boolWord ((operand s rs1).ult (sext12 imm))) s)

/-- XORI (R224). -/
def execXori (rd rs1 : Reg) (imm : BitVec 12) (s : State) : Result :=
  let s := fetched (encode (.xori rd rs1 imm)) s
  .next (retireAlu rd (operand s rs1 ^^^ sext12 imm) s)

/-- ORI (R225). -/
def execOri (rd rs1 : Reg) (imm : BitVec 12) (s : State) : Result :=
  let s := fetched (encode (.ori rd rs1 imm)) s
  .next (retireAlu rd (operand s rs1 ||| sext12 imm) s)

/-- ANDI (R226). -/
def execAndi (rd rs1 : Reg) (imm : BitVec 12) (s : State) : Result :=
  let s := fetched (encode (.andi rd rs1 imm)) s
  .next (retireAlu rd (operand s rs1 &&& sext12 imm) s)

/-- SLLI (R227): `upper` (bits 31:25) is not tested. -/
def execSlli (rd rs1 : Reg) (shamt : BitVec 5) (upper : BitVec 7) (s : State) : Result :=
  let s := fetched (encode (.slli rd rs1 shamt upper)) s
  .next (retireAlu rd (operand s rs1 <<< shamt.toNat) s)

/-- SRLI (R228): logical. -/
def execSrli (rd rs1 : Reg) (shamt : BitVec 5) (upper : BitVec 7) (s : State) : Result :=
  let s := fetched (encode (.srli rd rs1 shamt upper)) s
  .next (retireAlu rd (operand s rs1 >>> shamt.toNat) s)

/-- SRAI (R229): a LOGICAL shift on this hardware (90_conflicts.md C6). -/
def execSrai (rd rs1 : Reg) (shamt : BitVec 5) (upper : BitVec 7) (s : State) : Result :=
  let s := fetched (encode (.srai rd rs1 shamt upper)) s
  .next (retireAlu rd (operand s rs1 >>> shamt.toNat) s)

end Sys2Proof.Machine
end

