-- ==== Sys2Proof/Machine/AluRegister.lean ====
section
/-! DEFINITION. The register-register ALU instructions, opcode `0b0110011`. 41_alu_register.md R200 to R211. -/

namespace Sys2Proof.Machine

/-- ADD (R201): wraps modulo 2^32. -/
def execAdd (rd rs1 rs2 : Reg) (funct7 : BitVec 7) (s : State) : Result :=
  let s := fetched (encode (.add rd rs1 rs2 funct7)) s
  .next (retireAlu rd (operand s rs1 + operand s rs2) s)

/-- SUB (R202): wraps modulo 2^32. -/
def execSub (rd rs1 rs2 : Reg) (funct7 : BitVec 7) (s : State) : Result :=
  let s := fetched (encode (.sub rd rs1 rs2 funct7)) s
  .next (retireAlu rd (operand s rs1 - operand s rs2) s)

/-- SLL (R203): only the low 5 bits of the second operand count. -/
def execSll (rd rs1 rs2 : Reg) (funct7 : BitVec 7) (s : State) : Result :=
  let s := fetched (encode (.sll rd rs1 rs2 funct7)) s
  .next (retireAlu rd (operand s rs1 <<< shiftAmount (operand s rs2)) s)

/-- SLT (R204): signed comparison. -/
def execSlt (rd rs1 rs2 : Reg) (funct7 : BitVec 7) (s : State) : Result :=
  let s := fetched (encode (.slt rd rs1 rs2 funct7)) s
  .next (retireAlu rd (boolWord ((operand s rs1).slt (operand s rs2))) s)

/-- SLTU (R205): unsigned comparison. -/
def execSltu (rd rs1 rs2 : Reg) (funct7 : BitVec 7) (s : State) : Result :=
  let s := fetched (encode (.sltu rd rs1 rs2 funct7)) s
  .next (retireAlu rd (boolWord ((operand s rs1).ult (operand s rs2))) s)

/-- XOR (R206). -/
def execXor (rd rs1 rs2 : Reg) (funct7 : BitVec 7) (s : State) : Result :=
  let s := fetched (encode (.xor rd rs1 rs2 funct7)) s
  .next (retireAlu rd (operand s rs1 ^^^ operand s rs2) s)

/-- SRL (R207): zeros enter at the top. -/
def execSrl (rd rs1 rs2 : Reg) (funct7 : BitVec 7) (s : State) : Result :=
  let s := fetched (encode (.srl rd rs1 rs2 funct7)) s
  .next (retireAlu rd (operand s rs1 >>> shiftAmount (operand s rs2)) s)

/-- SRA (R208): copies of bit 31 enter at the top. -/
def execSra (rd rs1 rs2 : Reg) (funct7 : BitVec 7) (s : State) : Result :=
  let s := fetched (encode (.sra rd rs1 rs2 funct7)) s
  .next (retireAlu rd ((operand s rs1).sshiftRight (shiftAmount (operand s rs2))) s)

/-- OR (R209). -/
def execOr (rd rs1 rs2 : Reg) (funct7 : BitVec 7) (s : State) : Result :=
  let s := fetched (encode (.or rd rs1 rs2 funct7)) s
  .next (retireAlu rd (operand s rs1 ||| operand s rs2) s)

/-- AND (R210). -/
def execAnd (rd rs1 rs2 : Reg) (funct7 : BitVec 7) (s : State) : Result :=
  let s := fetched (encode (.and rd rs1 rs2 funct7)) s
  .next (retireAlu rd (operand s rs1 &&& operand s rs2) s)

end Sys2Proof.Machine
end

