-- ==== Sys2Proof/Machine/Loads.lean ====
section
/-! DEFINITION. The loads, opcode `0b0000011`, and the three `funct3` values RV32I has no load for. 44_loads.md R250 to
R257. -/

namespace Sys2Proof.Machine

/-- LB (R251): the byte, sign-extended. -/
def execLb (rd rs1 : Reg) (imm : BitVec 12) (s : State) : Result :=
  let s := fetched (encode (.lb rd rs1 imm)) s
  .next (retireLoad rd (sext8 (busRead s (effectiveAddress s rs1 imm) .byte)) s)

/-- LH (R252): the half-word, sign-extended. -/
def execLh (rd rs1 : Reg) (imm : BitVec 12) (s : State) : Result :=
  let s := fetched (encode (.lh rd rs1 imm)) s
  .next (retireLoad rd (sext16 (busRead s (effectiveAddress s rs1 imm) .half)) s)

/-- LW (R253): the word that contains the address. -/
def execLw (rd rs1 : Reg) (imm : BitVec 12) (s : State) : Result :=
  let s := fetched (encode (.lw rd rs1 imm)) s
  .next (retireLoad rd (busRead s (effectiveAddress s rs1 imm) .word) s)

/-- LOAD_F3_3 (R257): no bus read; the held `writebackValue` (D8, notes/assumptions/14.md). -/
def execLoadF3is3 (rd rs1 : Reg) (imm : BitVec 12) (s : State) : Result :=
  let s := fetched (encode (.loadF3is3 rd rs1 imm)) s
  .next (retireLoad rd (s.M.writebackValue.value) s)

/-- LBU (R254): the byte, zero-extended. -/
def execLbu (rd rs1 : Reg) (imm : BitVec 12) (s : State) : Result :=
  let s := fetched (encode (.lbu rd rs1 imm)) s
  .next (retireLoad rd (zext8 (busRead s (effectiveAddress s rs1 imm) .byte)) s)

/-- LHU (R255): the half-word, zero-extended. -/
def execLhu (rd rs1 : Reg) (imm : BitVec 12) (s : State) : Result :=
  let s := fetched (encode (.lhu rd rs1 imm)) s
  .next (retireLoad rd (zext16 (busRead s (effectiveAddress s rs1 imm) .half)) s)

/-- LOAD_F3_6 (R256): exactly as LW. -/
def execLoadF3is6 (rd rs1 : Reg) (imm : BitVec 12) (s : State) : Result :=
  let s := fetched (encode (.loadF3is6 rd rs1 imm)) s
  .next (retireLoad rd (busRead s (effectiveAddress s rs1 imm) .word) s)

/-- LOAD_F3_7 (R257): no bus read; the held `writebackValue` (D8, notes/assumptions/14.md). -/
def execLoadF3is7 (rd rs1 : Reg) (imm : BitVec 12) (s : State) : Result :=
  let s := fetched (encode (.loadF3is7 rd rs1 imm)) s
  .next (retireLoad rd (s.M.writebackValue.value) s)

end Sys2Proof.Machine
end

