-- ==== Sys2Proof/Machine/Lui.lean ====
section
/-! DEFINITION. LUI, opcode `0b0110111`. 43_lui.md R240. -/

namespace Sys2Proof.Machine

/-- LUI (R240): the 20-bit field above 12 zero bits. -/
def execLui (rd : Reg) (imm20 : BitVec 20) (s : State) : Result :=
  let s := fetched (encode (.lui rd imm20)) s
  .next (retireLui rd (upperImm imm20) s)

end Sys2Proof.Machine
end

