-- ==== Sys2Proof/Machine/Stores.lean ====
section
/-! DEFINITION. The stores, opcode `0b0100011`, and the five `funct3` values RV32I has no store for. 45_stores.md R270
to R274. -/

namespace Sys2Proof.Machine

/-- SB (R271): the low byte of `x[rs2]`. -/
def execSb (rs1 rs2 : Reg) (imm : BitVec 12) (s : State) : Result :=
  let s := fetched (encode (.sb rs1 rs2 imm)) s
  .next (busWrite (retireStore s) (effectiveAddress s rs1 imm) (storeMask .byte (operand s rs2)) .byte)

/-- SH (R272): the low half-word of `x[rs2]`. -/
def execSh (rs1 rs2 : Reg) (imm : BitVec 12) (s : State) : Result :=
  let s := fetched (encode (.sh rs1 rs2 imm)) s
  .next (busWrite (retireStore s) (effectiveAddress s rs1 imm) (storeMask .half (operand s rs2)) .half)

/-- SW (R273): the whole of `x[rs2]`, into the word that contains the address. -/
def execSw (rs1 rs2 : Reg) (imm : BitVec 12) (s : State) : Result :=
  let s := fetched (encode (.sw rs1 rs2 imm)) s
  .next (busWrite (retireStore s) (effectiveAddress s rs1 imm) (storeMask .word (operand s rs2)) .word)

/-- STORE_F3_3 (R274): no bus write, no register write (D7, notes/assumptions/13.md). -/
def execStoreF3is3 (rs1 rs2 : Reg) (imm : BitVec 12) (s : State) : Result :=
  .next (retireStore (fetched (encode (.storeF3is3 rs1 rs2 imm)) s))

/-- STORE_F3_4 (R274): no bus write, no register write (D7, notes/assumptions/13.md). -/
def execStoreF3is4 (rs1 rs2 : Reg) (imm : BitVec 12) (s : State) : Result :=
  .next (retireStore (fetched (encode (.storeF3is4 rs1 rs2 imm)) s))

/-- STORE_F3_5 (R274): no bus write, no register write (D7, notes/assumptions/13.md). -/
def execStoreF3is5 (rs1 rs2 : Reg) (imm : BitVec 12) (s : State) : Result :=
  .next (retireStore (fetched (encode (.storeF3is5 rs1 rs2 imm)) s))

/-- STORE_F3_6 (R274): no bus write, no register write (D7, notes/assumptions/13.md). -/
def execStoreF3is6 (rs1 rs2 : Reg) (imm : BitVec 12) (s : State) : Result :=
  .next (retireStore (fetched (encode (.storeF3is6 rs1 rs2 imm)) s))

/-- STORE_F3_7 (R274): no bus write, no register write (D7, notes/assumptions/13.md). -/
def execStoreF3is7 (rs1 rs2 : Reg) (imm : BitVec 12) (s : State) : Result :=
  .next (retireStore (fetched (encode (.storeF3is7 rs1 rs2 imm)) s))

end Sys2Proof.Machine
end

