-- ==== Sys2Proof/Machine/Unrecognized.lean ====
section
/-! DEFINITION. Words of no class: branches, jumps, AUIPC, FENCE, SYSTEM, the ROM fill word and everything else.
46_unrecognized.md R285 to R294. -/

namespace Sys2Proof.Machine

/-- The conditional branches (R286): of no class, a no-op. -/
def execBranch (rest : BitVec 25) (s : State) : Result :=
  .next (retireNoClass (fetched (encode (.branch rest)) s))

/-- JAL (R287): of no class, a no-op. -/
def execJal (rest : BitVec 25) (s : State) : Result :=
  .next (retireNoClass (fetched (encode (.jal rest)) s))

/-- JALR (R288): of no class, a no-op. -/
def execJalr (rest : BitVec 25) (s : State) : Result :=
  .next (retireNoClass (fetched (encode (.jalr rest)) s))

/-- AUIPC (R289): of no class, a no-op. -/
def execAuipc (rest : BitVec 25) (s : State) : Result :=
  .next (retireNoClass (fetched (encode (.auipc rest)) s))

/-- FENCE and FENCE.I (R290): of no class, a no-op. -/
def execMiscMem (rest : BitVec 25) (s : State) : Result :=
  .next (retireNoClass (fetched (encode (.miscMem rest)) s))

/-- SYSTEM: ECALL, EBREAK, the CSR accesses, MRET, SRET, WFI, SFENCE.VMA (R291): of no class, a no-op. -/
def execSystem (rest : BitVec 25) (s : State) : Result :=
  .next (retireNoClass (fetched (encode (.system rest)) s))

/-- Every other word (R285, R292, R293): of no class, a no-op. -/
def execUnrecognized (word : Word) (s : State) : Result :=
  .next (retireNoClass (fetched (encode (.unrecognized word)) s))

end Sys2Proof.Machine
end

