-- ==== Sys2Proof/Machine/Dispatch.lean ====
section
/-! DEFINITION. The meaning of an instruction: one arm per constructor. 40_pipeline_stages.md R180. -/

namespace Sys2Proof.Machine

def exec (i : Instr) (s : State) : Host.Outcome State Fault Refusal :=
  match i with
  | .add rd rs1 rs2 funct7 => Sys2Proof.Machine.execAdd rd rs1 rs2 funct7 s
  | .sub rd rs1 rs2 funct7 => Sys2Proof.Machine.execSub rd rs1 rs2 funct7 s
  | .sll rd rs1 rs2 funct7 => Sys2Proof.Machine.execSll rd rs1 rs2 funct7 s
  | .slt rd rs1 rs2 funct7 => Sys2Proof.Machine.execSlt rd rs1 rs2 funct7 s
  | .sltu rd rs1 rs2 funct7 => Sys2Proof.Machine.execSltu rd rs1 rs2 funct7 s
  | .xor rd rs1 rs2 funct7 => Sys2Proof.Machine.execXor rd rs1 rs2 funct7 s
  | .srl rd rs1 rs2 funct7 => Sys2Proof.Machine.execSrl rd rs1 rs2 funct7 s
  | .sra rd rs1 rs2 funct7 => Sys2Proof.Machine.execSra rd rs1 rs2 funct7 s
  | .or rd rs1 rs2 funct7 => Sys2Proof.Machine.execOr rd rs1 rs2 funct7 s
  | .and rd rs1 rs2 funct7 => Sys2Proof.Machine.execAnd rd rs1 rs2 funct7 s
  | .addi rd rs1 imm => Sys2Proof.Machine.execAddi rd rs1 imm s
  | .slti rd rs1 imm => Sys2Proof.Machine.execSlti rd rs1 imm s
  | .sltiu rd rs1 imm => Sys2Proof.Machine.execSltiu rd rs1 imm s
  | .xori rd rs1 imm => Sys2Proof.Machine.execXori rd rs1 imm s
  | .ori rd rs1 imm => Sys2Proof.Machine.execOri rd rs1 imm s
  | .andi rd rs1 imm => Sys2Proof.Machine.execAndi rd rs1 imm s
  | .slli rd rs1 shamt upper => Sys2Proof.Machine.execSlli rd rs1 shamt upper s
  | .srli rd rs1 shamt upper => Sys2Proof.Machine.execSrli rd rs1 shamt upper s
  | .srai rd rs1 shamt upper => Sys2Proof.Machine.execSrai rd rs1 shamt upper s
  | .lui rd imm20 => Sys2Proof.Machine.execLui rd imm20 s
  | .lb rd rs1 imm => Sys2Proof.Machine.execLb rd rs1 imm s
  | .lh rd rs1 imm => Sys2Proof.Machine.execLh rd rs1 imm s
  | .lw rd rs1 imm => Sys2Proof.Machine.execLw rd rs1 imm s
  | .loadF3is3 rd rs1 imm => Sys2Proof.Machine.execLoadF3is3 rd rs1 imm s
  | .lbu rd rs1 imm => Sys2Proof.Machine.execLbu rd rs1 imm s
  | .lhu rd rs1 imm => Sys2Proof.Machine.execLhu rd rs1 imm s
  | .loadF3is6 rd rs1 imm => Sys2Proof.Machine.execLoadF3is6 rd rs1 imm s
  | .loadF3is7 rd rs1 imm => Sys2Proof.Machine.execLoadF3is7 rd rs1 imm s
  | .sb rs1 rs2 imm => Sys2Proof.Machine.execSb rs1 rs2 imm s
  | .sh rs1 rs2 imm => Sys2Proof.Machine.execSh rs1 rs2 imm s
  | .sw rs1 rs2 imm => Sys2Proof.Machine.execSw rs1 rs2 imm s
  | .storeF3is3 rs1 rs2 imm => Sys2Proof.Machine.execStoreF3is3 rs1 rs2 imm s
  | .storeF3is4 rs1 rs2 imm => Sys2Proof.Machine.execStoreF3is4 rs1 rs2 imm s
  | .storeF3is5 rs1 rs2 imm => Sys2Proof.Machine.execStoreF3is5 rs1 rs2 imm s
  | .storeF3is6 rs1 rs2 imm => Sys2Proof.Machine.execStoreF3is6 rs1 rs2 imm s
  | .storeF3is7 rs1 rs2 imm => Sys2Proof.Machine.execStoreF3is7 rs1 rs2 imm s
  | .branch rest => Sys2Proof.Machine.execBranch rest s
  | .jal rest => Sys2Proof.Machine.execJal rest s
  | .jalr rest => Sys2Proof.Machine.execJalr rest s
  | .auipc rest => Sys2Proof.Machine.execAuipc rest s
  | .miscMem rest => Sys2Proof.Machine.execMiscMem rest s
  | .system rest => Sys2Proof.Machine.execSystem rest s
  | .unrecognized word => Sys2Proof.Machine.execUnrecognized word s

end Sys2Proof.Machine
end

