-- ==== Sys2Proof/Machine/Pipeline.lean ====
section
/-! DEFINITION. The tick, the normative level of the spec: the compute phase of each stage, the commit phase, the
selector, and `cycle()`. 40_pipeline_stages.md R130 to R175. -/

namespace Sys2Proof.Machine

/-- The rotation of the selector (R135). -/
def nextStage : Stage → Stage
  | .IF => .DE
  | .DE => .EX
  | .EX => .MEM
  | .MEM => .WB
  | .WB => .IF

/-- `fetch_stage.compute()` (R140, R141). -/
def fetchCompute (s : State) : State :=
  if s.sel = .IF then
    { s with F := { inst := s.F.inst.set (busRead s s.F.pc.value .word), pc := s.F.pc.set (s.F.pc.value + 4#32) } }
  else s

/-- `decode_stage.compute()`: fields, operands, class flags, immediate (R145 to R149). -/
def decodeCompute (s : State) : State :=
  if s.sel = .DE then
    let w := s.F.inst.value
    { s with
      D :=
        { inst := s.D.inst.set w
          opcode := s.D.opcode.set (opcodeOf w)
          rd := s.D.rd.set (rdOf w)
          funct3 := s.D.funct3.set (funct3Of w)
          rs1 := s.D.rs1.set (operand s (rs1Of w))
          rs2 := s.D.rs2.set (operand s (rs2Of w))
          shamt := s.D.shamt.set (shamtOf w)
          funct7 := s.D.funct7.set (funct7Of w)
          imm32 :=
            if isStore (opcodeOf w) then s.D.imm32.set (immS w)
            else if isAluOp (opcodeOf w) || isLoad (opcodeOf w) then s.D.imm32.set (immI w)
            else if isLUI (opcodeOf w) then s.D.imm32.set (immU w)
            else s.D.imm32
          isAluOp := s.D.isAluOp.set (isAluOp (opcodeOf w))
          isStore := s.D.isStore.set (isStore (opcodeOf w))
          isLoad := s.D.isLoad.set (isLoad (opcodeOf w))
          isLUI := s.D.isLUI.set (isLUI (opcodeOf w)) } }
  else s

/-- `execute_stage.compute()` (R150 to R153). -/
def executeCompute (s : State) : State :=
  if s.sel = .EX then
    { s with
      E :=
        { aluResult := s.E.aluResult.set (aluOfCells s.D)
          isAluOp := s.E.isAluOp.set (isAluOp s.D.opcode.value)
          rd := s.E.rd.set s.D.rd.value
          funct3 := s.E.funct3.set s.D.funct3.value
          imm32 := s.E.imm32.set s.D.imm32.value
          rs1 := s.E.rs1.set s.D.rs1.value
          rs2 := s.E.rs2.set s.D.rs2.value
          isLoad := s.E.isLoad.set s.D.isLoad.value
          isStore := s.E.isStore.set s.D.isStore.value
          isLUI := s.E.isLUI.set s.D.isLUI.value } }
  else s

/-- The effective address memory_access_stage forms (R155). -/
def memoryAddress (s : State) : Word := s.E.imm32.value + s.E.rs1.value

/-- The store arm's bus write, by `funct3`; 3 to 7 write nothing (R156, D7). -/
def storeArm (s : State) : State :=
  if s.E.funct3.value = 0#3 then busWrite s (memoryAddress s) (storeMask .byte s.E.rs2.value) .byte
  else if s.E.funct3.value = 1#3 then busWrite s (memoryAddress s) (storeMask .half s.E.rs2.value) .half
  else if s.E.funct3.value = 2#3 then busWrite s (memoryAddress s) (storeMask .word s.E.rs2.value) .word
  else s

/-- The load arm's value, by `funct3 & 0b011` and `funct3 & 0b100`; none for width 3 (R157, D8). -/
def loadArm (s : State) : Option Word :=
  let f3 := s.E.funct3.value
  let width := f3 &&& 0b011#3
  let signed := (f3 &&& 0b100#3) == 0#3
  if width = 0#3 then
    let raw := busRead s (memoryAddress s) .byte
    some (if signed then sext8 raw else raw)
  else if width = 1#3 then
    let raw := busRead s (memoryAddress s) .half
    some (if signed then sext16 raw else raw)
  else if width = 2#3 then some (busRead s (memoryAddress s) .word)
  else none

/-- What memory_access_stage sets `writebackValue` to, if it sets it (R156 to R160, D9). -/
def memoryResult (s : State) : Option Word :=
  if s.E.isStore.value then none
  else if s.E.isLoad.value then loadArm s
  else if s.E.isLUI.value then some s.E.imm32.value
  else if s.E.isAluOp.value then some s.E.aluResult.value
  else none

/-- `memory_access_stage.compute()` (R155 to R162). A store has changed RAM when the tick ends (D11). -/
def memoryCompute (s : State) : State :=
  if s.sel = .MEM then
    let t := if s.E.isStore.value then storeArm s else s
    { t with
      M :=
        { writebackValue :=
            match memoryResult s with
            | some v => s.M.writebackValue.set v
            | none => s.M.writebackValue
          rd := s.M.rd.set s.E.rd.value
          isAluOp := s.M.isAluOp.set s.E.isAluOp.value
          isLoad := s.M.isLoad.set s.E.isLoad.value
          isLUI := s.M.isLUI.set s.E.isLUI.value
          isStore := s.M.isStore.set s.E.isStore.value } }
  else s

/-- `write_back_stage.compute()`: no test of `rd` against 0 (R165, 10_state.md R23). -/
def writeBackCompute (s : State) : State :=
  if s.sel = .WB then
    if s.M.isAluOp.value || s.M.isLoad.value || s.M.isLUI.value then rfStage s s.M.rd.value s.M.writebackValue.value
    else s
  else s

/-- The compute phase, in the fixed order (R134, R136). -/
def computePhase (s : State) : State :=
  writeBackCompute (memoryCompute (executeCompute (decodeCompute (fetchCompute s))))

/-- `cycle()`: compute, commit, advance the selector (R134). -/
def cycle (s : State) : State :=
  let t := commitPhase (computePhase s)
  { t with sel := nextStage t.sel }

/-- `n` ticks. -/
def runTicks : Nat → State → State
  | 0, s => s
  | n + 1, s => runTicks n (cycle s)

/-- How many ticks the instruction in flight still needs; none is in flight at a Fetch tick (R175, R182). -/
def ticksInFlight : Stage → Nat
  | .IF => 0
  | .DE => 4
  | .EX => 3
  | .MEM => 2
  | .WB => 1

/-- The instruction in flight run to its end (R182; notes/assumptions/17.md). -/
def finishInFlight (s : State) : State := runTicks (ticksInFlight s.sel) s

end Sys2Proof.Machine
end

