-- ==== Sys2Proof/Machine/Step.lean ====
section
/-! DEFINITION. One step is one instruction: from a Fetch boundary the whole instruction at `pc`, from inside an
instruction the rest of it. 40_pipeline_stages.md R175, R180, R182; notes/assumptions/17.md. -/

namespace Sys2Proof.Machine

/-- One step. Before the one-time `load` the launch is refused (70_reset_and_hazards.md R332); after it a step always
has a next state. -/
def step (s : State) : Host.Outcome State Fault Refusal :=
  if s.romLoaded then
    match s.sel with
    | .IF => exec (decode (fetchWord s)) s
    | .DE | .EX | .MEM | .WB => .next (finishInFlight s)
  else .refused .launchBeforeLoad

/-- `s` with the instruction whose low `nbits` bits are those of `w` stored where the next step fetches it. -/
def State.withFetchWord (s : State) (nbits w : Nat) : State := placeWord s (tableWord nbits w)

end Sys2Proof.Machine
end

