-- ==== Sys2Proof/Machine/HostInterface.lean ====
section
/-! DEFINITION. The boundary of the machine: the host's four operations and the launch. 70_reset_and_hazards.md R332,
R340 to R345; 20_memory.md R71, R86; 10_state.md R24. -/

namespace Sys2Proof.Machine

/-- The byte of a cell, listed only where it is not what an unlisted byte reads as. -/
def romCell (a : Nat) (b : Byte) : Memory := if b = Config.fillByte .rom then [] else [(a, b)]

/-- The content `load` leaves: `words[k]` at word `i + k`, the fill word everywhere after (R71). -/
def romImage : Nat → List Word → Memory
  | _, [] => []
  | i, w :: rest =>
    romCell (4 * i) (byteOf w 0) ++ romCell (4 * i + 1) (byteOf w 1) ++ romCell (4 * i + 2) (byteOf w 2) ++
      romCell (4 * i + 3) (byteOf w 3) ++ romImage (i + 1) rest

/-- `load(words)` (R340): once, at most 262144 words. -/
def hostLoad (words : List Word) (s : State) : Host.Outcome State Fault Refusal :=
  if s.romLoaded then .refused .secondLoad
  else if words.length ≤ Config.deviceWords .rom then .next { s with ROM := romImage 0 words, romLoaded := true }
  else .refused .loadTooLong

/-- `cycle()` (R341): one tick, which always completes once the program is loaded (R332). -/
def hostCycle (s : State) : Host.Outcome State Fault Refusal :=
  if s.romLoaded then .next (cycle s) else .refused .launchBeforeLoad

/-- Register observation (R342, 10_state.md R24): the committed cell, index 0 not special. -/
def hostReadRegister (s : State) (i : Reg) : Word := rfValue s i

/-- Bus observation, read (R343, 20_memory.md R86). -/
def hostBusRead (s : State) (a : Word) (wd : Width) : Word := busRead s a wd

/-- Bus observation, write (R343; a value wider than the access is truncated by the device, D21). -/
def hostBusWrite (s : State) (a v : Word) (wd : Width) : State := busWrite s a v wd

/-- The launch inputs (R344, D20): the program, the register presets, the bus writes that preset RAM in order, and
`M.writebackValue`. -/
structure Launch where
  words : List Word
  registers : Vector Word 32
  ramWrites : List (Word × Word × Width)
  writebackValue : Word
  deriving DecidableEq, Repr

/-- RAM presets through the bus-observation interface, in order. -/
def presetRam (s : State) : List (Word × Word × Width) → State
  | [] => s
  | (a, v, wd) :: rest => presetRam (hostBusWrite s a v wd) rest

/-- The state before tick 1 of a launch (R332, R344): reset, `load`, presets. -/
def launch (l : Launch) : Host.Outcome State Fault Refusal :=
  match hostLoad l.words State.reset with
  | .next s =>
    .next (presetRam
      { s with
        RF := l.registers.map ClockedCell.init
        M := { s.M with writebackValue := .init l.writebackValue } } l.ramWrites)
  | .fault f => .fault f
  | .refused r => .refused r

end Sys2Proof.Machine
end

