-- ==== Sys2Proof/Safety.lean ====
section
/-! DEFINITION. What counts as a safe state and a safe run, in the terms the statements use: the tick-boundary
invariant, the invariant every tick and every step keeps, and what an instruction may change. 10_state.md R26, R41, R43;
40_pipeline_stages.md R180, R181. -/

namespace Sys2Proof.Machine

/-- The tick-boundary invariant: every clocked cell has `staged` = `committed`, that is, "commit is a true no-op"
(R41). -/
abbrev Settled (s : State) : Prop := commitPhase s = s

/-- `pc[1:0] = 0` (R26). -/
abbrev PcAligned (s : State) : Prop := s.F.pc.value.extractLsb' 0 2 = 0#2

/-- Both arrays are in the canonical form. -/
abbrev MemoriesWf (s : State) : Prop := Memory.wf .rom s.ROM = true ∧ Memory.wf .ram s.RAM = true

/-- At most one of four flags is true. -/
def atMostOne (a b c d : Bool) : Bool :=
  !((a && b) || (a && c) || (a && d) || (b && c) || (b && d) || (c && d))

/-- The Decode cells hold the fields of the one word latched in `D.inst`, and its class (40_pipeline_stages.md R145,
R147). -/
abbrev DecodeCellsMatch (s : State) : Prop :=
  s.D.opcode.value = opcodeOf s.D.inst.value ∧ s.D.rd.value = rdOf s.D.inst.value ∧
  s.D.funct3.value = funct3Of s.D.inst.value ∧ s.D.shamt.value = shamtOf s.D.inst.value ∧
  s.D.funct7.value = funct7Of s.D.inst.value ∧
  s.D.isAluOp.value = isAluOp s.D.opcode.value ∧ s.D.isStore.value = isStore s.D.opcode.value ∧
  s.D.isLoad.value = isLoad s.D.opcode.value ∧ s.D.isLUI.value = isLUI s.D.opcode.value

/-- Class exclusivity in the Execute and MemoryAccess cells (R181). -/
abbrev ClassesExclusive (s : State) : Prop :=
  atMostOne s.E.isAluOp.value s.E.isStore.value s.E.isLoad.value s.E.isLUI.value = true ∧
  atMostOne s.M.isAluOp.value s.M.isStore.value s.M.isLoad.value s.M.isLUI.value = true

/-- The invariant of the machine. -/
abbrev Inv (s : State) : Prop :=
  Settled s ∧ PcAligned s ∧ MemoriesWf s ∧ DecodeCellsMatch s ∧ ClassesExclusive s

/-- What an instruction leaves alone whatever its class: ROM, the launch flag; and where it leaves the machine: at the
next Fetch boundary with `pc` advanced by 4 (R26, R175). -/
def StepsPast (s t : State) : Prop :=
  t.F.pc.value = s.F.pc.value + 4#32 ∧ t.sel = .IF ∧ t.ROM = s.ROM ∧ t.romLoaded = s.romLoaded

/-- Every byte the bus answers is as before, and every wider access too. -/
def MemoryUnchanged (s t : State) : Prop :=
  t.RAM = s.RAM ∧ ∀ a wd, busRead t a wd = busRead s a wd

/-- An instruction that writes the value `v` to cell `RF[rd]` and to `M.writebackValue`, and changes no other register
and no memory. -/
def WritesRegister (s t : State) (rd : Reg) (v : Word) : Prop :=
  rfValue t rd = v ∧ (∀ r, r ≠ rd → rfValue t r = rfValue s r) ∧ t.M.writebackValue.value = v ∧
  StepsPast s t ∧ MemoryUnchanged s t

/-- An instruction that writes no register. -/
def WritesNoRegister (s t : State) : Prop :=
  (∀ r, rfValue t r = rfValue s r) ∧ StepsPast s t

/-- The hidden cell `M.writebackValue` holds (10_state.md R42). -/
def HoldsWritebackValue (s t : State) : Prop := t.M.writebackValue.value = s.M.writebackValue.value

/-- The RAM word a bus address names, aliases folded; none outside the RAM range (20_memory.md R63, R72). -/
def ramWordAt (a : Word) : Option Nat :=
  if route a = some .ram then some (wordIndex .ram (localOf a)) else none

/-- The RAM byte a bus address names, as its word and its offset in it; none outside the RAM range. -/
def ramByteAt (a : Word) : Option (Nat × BitVec 2) :=
  if route a = some .ram then some (wordIndex .ram (localOf a), byteOffset (localOf a)) else none

/-- The run of `n` steps reaches `t`: no fault, no refusal on the way. -/
def Runs (n : Nat) (s t : State) : Prop := Sys2Proof.core.run n s = .next t

end Sys2Proof.Machine
end

