-- ==== Sys2Proof/Certificates/Slice0/Obligations.lean ====
section
/-! DEFINITION. The statements for the provers. Each docstring names the rules of spec/ its statement formalises, and
the decision or log entry of notes/assumptions/ it rests on where it rests on one. `Settled` is the tick-boundary
invariant of 10_state.md R41, which every tick establishes (`TickKeepsInvariant`) and reset has (`ResetInvariant`);
`MemoriesWf` says that the arrays are in their canonical form, which the same statements keep. Where a statement says
that `RF[rd]` takes a value, it says so for `rd` = 0 too: no path to the cell is guarded (00_scope.md R9 (b),
40_pipeline_stages.md R165; that this is kept is the spec's decision D3, notes/assumptions/8.md). -/

open Sys2Proof Sys2Proof.Machine

/-! ## Encoding -/

/-- 30_encoding.md sections 1 to 3: no bit of an instruction is lost between its encoding and its decoding, for every
well-formed instruction and every operand. -/
def Obligations.DecodeOfEncode : Prop :=
  ∀ i : Instr, i.wellFormed = true → decode (encode i) = i

/-- 30_encoding.md section 4: the decoder takes every one of the 2^32 words, answers a well-formed instruction, and
that instruction's encoding is the word. -/
def Obligations.EncodeOfDecode : Prop :=
  ∀ w : Word, (decode w).wellFormed = true ∧ encode (decode w) = w

/-- 30_encoding.md R110: opcode `0b0110011` is chosen by `funct3` and, for `funct3` 0 and 5 only, by `w[30]`. -/
def Obligations.RegisterFormSelection : Prop :=
  ∀ w : Word, w.extractLsb' 0 7 = 0b0110011#7 →
    let f3 := w.extractLsb' 12 3
    let rd := w.extractLsb' 7 5
    let rs1 := w.extractLsb' 15 5
    let rs2 := w.extractLsb' 20 5
    let f7 := w.extractLsb' 25 7
    (f3 = 0#3 → w.getLsbD 30 = false → decode w = .add rd rs1 rs2 f7) ∧
    (f3 = 0#3 → w.getLsbD 30 = true → decode w = .sub rd rs1 rs2 f7) ∧
    (f3 = 1#3 → decode w = .sll rd rs1 rs2 f7) ∧
    (f3 = 2#3 → decode w = .slt rd rs1 rs2 f7) ∧
    (f3 = 3#3 → decode w = .sltu rd rs1 rs2 f7) ∧
    (f3 = 4#3 → decode w = .xor rd rs1 rs2 f7) ∧
    (f3 = 5#3 → w.getLsbD 30 = false → decode w = .srl rd rs1 rs2 f7) ∧
    (f3 = 5#3 → w.getLsbD 30 = true → decode w = .sra rd rs1 rs2 f7) ∧
    (f3 = 6#3 → decode w = .or rd rs1 rs2 f7) ∧
    (f3 = 7#3 → decode w = .and rd rs1 rs2 f7)

/-- 30_encoding.md R111: opcode `0b0010011` is chosen by `funct3`; the two rows of `funct3` 5 differ in bit 30. -/
def Obligations.ImmediateFormSelection : Prop :=
  ∀ w : Word, w.extractLsb' 0 7 = 0b0010011#7 →
    let f3 := w.extractLsb' 12 3
    let rd := w.extractLsb' 7 5
    let rs1 := w.extractLsb' 15 5
    let imm := w.extractLsb' 20 12
    let shamt := w.extractLsb' 20 5
    let upper := w.extractLsb' 25 7
    (f3 = 0#3 → decode w = .addi rd rs1 imm) ∧
    (f3 = 1#3 → decode w = .slli rd rs1 shamt upper) ∧
    (f3 = 2#3 → decode w = .slti rd rs1 imm) ∧
    (f3 = 3#3 → decode w = .sltiu rd rs1 imm) ∧
    (f3 = 4#3 → decode w = .xori rd rs1 imm) ∧
    (f3 = 5#3 → w.getLsbD 30 = false → decode w = .srli rd rs1 shamt upper) ∧
    (f3 = 5#3 → w.getLsbD 30 = true → decode w = .srai rd rs1 shamt upper) ∧
    (f3 = 6#3 → decode w = .ori rd rs1 imm) ∧
    (f3 = 7#3 → decode w = .andi rd rs1 imm)

/-- 30_encoding.md R112: the rows of loads, stores and LUI. Where the store immediate's bits lie is not this rule's but
R105's (`DecodeTickImmediate`), so the statement leaves that operand open. -/
def Obligations.LoadStoreLuiSelection : Prop :=
  ∀ w : Word,
    let f3 := w.extractLsb' 12 3
    let rd := w.extractLsb' 7 5
    let rs1 := w.extractLsb' 15 5
    let rs2 := w.extractLsb' 20 5
    let imm := w.extractLsb' 20 12
    (w.extractLsb' 0 7 = 0b0000011#7 →
      (f3 = 0#3 → decode w = .lb rd rs1 imm) ∧ (f3 = 1#3 → decode w = .lh rd rs1 imm) ∧
      (f3 = 2#3 → decode w = .lw rd rs1 imm) ∧ (f3 = 3#3 → decode w = .loadF3is3 rd rs1 imm) ∧
      (f3 = 4#3 → decode w = .lbu rd rs1 imm) ∧ (f3 = 5#3 → decode w = .lhu rd rs1 imm) ∧
      (f3 = 6#3 → decode w = .loadF3is6 rd rs1 imm) ∧ (f3 = 7#3 → decode w = .loadF3is7 rd rs1 imm)) ∧
    (w.extractLsb' 0 7 = 0b0100011#7 →
      ∃ x : BitVec 12,
        (f3 = 0#3 → decode w = .sb rs1 rs2 x) ∧ (f3 = 1#3 → decode w = .sh rs1 rs2 x) ∧
        (f3 = 2#3 → decode w = .sw rs1 rs2 x) ∧ (f3 = 3#3 → decode w = .storeF3is3 rs1 rs2 x) ∧
        (f3 = 4#3 → decode w = .storeF3is4 rs1 rs2 x) ∧ (f3 = 5#3 → decode w = .storeF3is5 rs1 rs2 x) ∧
        (f3 = 6#3 → decode w = .storeF3is6 rs1 rs2 x) ∧ (f3 = 7#3 → decode w = .storeF3is7 rs1 rs2 x)) ∧
    (w.extractLsb' 0 7 = 0b0110111#7 → decode w = .lui rd (w.extractLsb' 12 20))

/-- 30_encoding.md section 4 and 46_unrecognized.md: every other word. That the six opcodes are branches, jumps, AUIPC,
FENCE and SYSTEM is from general knowledge (93 G9, notes/assumptions/20.md). -/
def Obligations.NoClassSelection : Prop :=
  ∀ w : Word,
    let op := w.extractLsb' 0 7
    let rest := w.extractLsb' 7 25
    (op = 0b1100011#7 → decode w = .branch rest) ∧ (op = 0b1101111#7 → decode w = .jal rest) ∧
    (op = 0b1100111#7 → decode w = .jalr rest) ∧ (op = 0b0010111#7 → decode w = .auipc rest) ∧
    (op = 0b0001111#7 → decode w = .miscMem rest) ∧ (op = 0b1110011#7 → decode w = .system rest) ∧
    (op ∉ [0b0110011#7, 0b0010011#7, 0b0000011#7, 0b0100011#7, 0b0110111#7, 0b1100011#7, 0b1101111#7, 0b1100111#7,
        0b0010111#7, 0b0001111#7, 0b1110011#7] → decode w = .unrecognized w)

/-- 30_encoding.md section 7: the rows of the opcode table with a non-zero mask are disjoint, and a word selects a row
(`w & mask == match`) exactly when the decoder gives an instruction of that row. -/
def Obligations.RowSelection : Prop :=
  ∀ (w : Word) (i : Instr), (rowOf i).1 ≠ 0#32 → (w &&& (rowOf i).1 = (rowOf i).2 ↔ rowOf (decode w) = rowOf i)

/-- Words the spec writes out, one or more of each family (41 to 46, 95_test_vectors.md). The displacements of the store
words rest on the S-type bit positions, and the name of `0x008000EF` on the RISC-V opcodes, both from general knowledge
(93 G4, G9, PRESUMED: notes/assumptions/9.md, 20.md). -/
def Obligations.SpecWordsDecode : Prop :=
  decode 0x002081B3#32 = .add 3 1 2 0 ∧ decode 0x40C5D833#32 = .sra 16 11 12 0b0100000 ∧
  decode 0xAAA08093#32 = .addi 1 1 0xAAA ∧ decode 0x4010D193#32 = .srai 3 1 1 0b0100000 ∧
  decode 0xAAAAA0B7#32 = .lui 1 0xAAAAA ∧ decode 0xFFC12283#32 = .lw 5 2 0xFFC ∧
  decode 0x00013283#32 = .loadF3is3 5 2 0 ∧ decode 0xFE312E23#32 = .sw 2 3 0xFFC ∧
  decode 0x7E310FA3#32 = .sb 2 3 0x7FF ∧ decode 0x00317023#32 = .storeF3is7 2 3 0 ∧
  decode 0x008000EF#32 = .jal 0b0000000010000000000000001 ∧ decode 0xFFFFFFFF#32 = .unrecognized 0xFFFFFFFF

/-- 30_encoding.md R104, R106, R107: the values of the immediates and of the shift amounts, as numbers. -/
def Obligations.ImmediateValues : Prop :=
  ∀ w b : Word,
    (immI w).toInt = (if w.toNat / 2 ^ 20 < 2048 then (w.toNat / 2 ^ 20 : Int) else (w.toNat / 2 ^ 20 : Int) - 4096) ∧
    (immU w).toNat = w.toNat / 2 ^ 12 * 2 ^ 12 ∧
    (shamtOf w).toNat = w.toNat / 2 ^ 20 % 32 ∧
    shiftAmount b = b.toNat % 32

/-- 30_encoding.md R108: the class flags, and that they exclude each other, which the rule derives from the five opcodes
being distinct. -/
def Obligations.ClassFlags : Prop :=
  ∀ op : BitVec 7,
    (isAluOp op = true ↔ op &&& 0b1011111#7 = 0b0010011#7) ∧
    (isAluOp op = true ↔ op = 0b0010011#7 ∨ op = 0b0110011#7) ∧
    (isStore op = true ↔ op = 0b0100011#7) ∧ (isLoad op = true ↔ op = 0b0000011#7) ∧
    (isLUI op = true ↔ op = 0b0110111#7) ∧
    atMostOne (isAluOp op) (isStore op) (isLoad op) (isLUI op) = true

/-! ## Cells, the selector and the five stages -/

/-- 40_pipeline_stages.md R131: the three operations of a clocked cell and the two laws the source lists. -/
def Obligations.ClockedCellLaws : Prop :=
  ∀ (c : ClockedCell Word) (v : Word) (vs : List Word),
    (c.set v).staged = v ∧ (c.set v).committed = c.committed ∧ c.value = c.committed ∧
    c.commit.committed = c.staged ∧ c.commit.staged = c.staged ∧
    ((vs ++ [v]).foldl ClockedCell.set c).commit.value = v ∧ c.commit.commit = c.commit

/-- 10_state.md section 2: `x[0]` is 0 as an operand whatever the cell holds, every other operand is the committed
register, and the host's observation of index 0 returns the raw cell. That an instruction with `rd` = 0 writes the cell
is the spec's decision D3 (notes/assumptions/8.md). -/
def Obligations.RegisterZero : Prop :=
  ∀ s : State,
    operand s 0#5 = 0#32 ∧ (∀ r : Reg, r ≠ 0#5 → operand s r = (s.RF[r.toNat]'r.isLt).committed) ∧
    (∀ r : Reg, hostReadRegister s r = (s.RF[r.toNat]'r.isLt).committed) ∧
    (Settled s → ∀ (rs1 : Reg) (imm : BitVec 12), ∃ t, exec (.addi 0#5 rs1 imm) s = .next t ∧
      hostReadRegister t 0#5 = operand s rs1 + sext12 imm ∧ operand t 0#5 = 0#32)

/-- 40_pipeline_stages.md R135: the rotation, and that a stage the selector does not name does nothing. -/
def Obligations.SelectorRotation : Prop :=
  ∀ s : State,
    (s.sel = .IF → (cycle s).sel = .DE) ∧ (s.sel = .DE → (cycle s).sel = .EX) ∧
    (s.sel = .EX → (cycle s).sel = .MEM) ∧ (s.sel = .MEM → (cycle s).sel = .WB) ∧
    (s.sel = .WB → (cycle s).sel = .IF) ∧ (runTicks 5 s).sel = s.sel ∧
    (s.sel ≠ .IF → fetchCompute s = s) ∧ (s.sel ≠ .DE → decodeCompute s = s) ∧
    (s.sel ≠ .EX → executeCompute s = s) ∧ (s.sel ≠ .MEM → memoryCompute s = s) ∧
    (s.sel ≠ .WB → writeBackCompute s = s)

/-- 40_pipeline_stages.md R140 and R141: the Fetch tick, and that `pc` and the fetched word hold in every other tick. -/
def Obligations.FetchTick : Prop :=
  ∀ s : State,
    (s.sel = .IF →
      (cycle s).F.inst.value = busRead s s.F.pc.value .word ∧ (cycle s).F.pc.value = s.F.pc.value + 4#32) ∧
    (s.sel ≠ .IF → Settled s → (cycle s).F = s.F)

/-- 40_pipeline_stages.md R145, R146, R147: what the Decode tick latches from the fetched word. -/
def Obligations.DecodeTick : Prop :=
  ∀ s : State, Settled s → s.sel = .DE →
    let w := s.F.inst.value
    let op := w.extractLsb' 0 7
    let rs1 := w.extractLsb' 15 5
    let rs2 := w.extractLsb' 20 5
    let t := cycle s
    t.D.inst.value = w ∧ t.D.opcode.value = op ∧ t.D.rd.value = w.extractLsb' 7 5 ∧
    t.D.funct3.value = w.extractLsb' 12 3 ∧ t.D.funct7.value = w.extractLsb' 25 7 ∧ t.D.shamt.value = rs2 ∧
    t.D.rs1.value = (if rs1 = 0#5 then 0#32 else (s.RF[rs1.toNat]'rs1.isLt).committed) ∧
    t.D.rs2.value = (if rs2 = 0#5 then 0#32 else (s.RF[rs2.toNat]'rs2.isLt).committed) ∧
    t.D.isAluOp.value = decide (op &&& 0b1011111#7 = 0b0010011#7) ∧ t.D.isStore.value = decide (op = 0b0100011#7) ∧
    t.D.isLoad.value = decide (op = 0b0000011#7) ∧ t.D.isLUI.value = decide (op = 0b0110111#7)

/-- 40_pipeline_stages.md section 4, part 4: which immediate `imm32` takes. That both ALU forms take the I-type value is
the spec's decision D5 (notes/assumptions/11.md); where the S-type bits lie is from general knowledge (93 G4,
notes/assumptions/9.md). -/
def Obligations.DecodeTickImmediate : Prop :=
  ∀ s : State, Settled s → s.sel = .DE →
    let w := s.F.inst.value
    let op := w.extractLsb' 0 7
    let imm32 := (cycle s).D.imm32.value
    (op = 0b0100011#7 → imm32 = BitVec.signExtend 32 (w.extractLsb' 25 7 ++ w.extractLsb' 7 5)) ∧
    (op = 0b0110011#7 ∨ op = 0b0010011#7 ∨ op = 0b0000011#7 → imm32 = BitVec.signExtend 32 (w.extractLsb' 20 12)) ∧
    (op = 0b0110111#7 → imm32 = w.extractLsb' 12 20 ++ 0#12) ∧
    (op ∉ [0b0100011#7, 0b0110011#7, 0b0010011#7, 0b0000011#7, 0b0110111#7] → imm32 = s.D.imm32.value)

/-- 40_pipeline_stages.md section 5: the Execute tick. That the immediate field is the low 12 bits of `D.imm32` and that
the result is latched for every class are the spec's decisions D4 and D6 (notes/assumptions/11.md, 12.md). -/
def Obligations.ExecuteTick : Prop :=
  ∀ s : State, Settled s → s.sel = .EX →
    let op := s.D.opcode.value
    let imm := s.D.imm32.value
    let t := cycle s
    t.E.aluResult.value =
      alu s.D.funct3.value (op.getLsbD 5) (imm.getLsbD 10) s.D.rs1.value s.D.rs2.value
        (BitVec.signExtend 32 (imm.extractLsb' 0 12)) s.D.shamt.value ∧
    t.E.isAluOp.value = decide (op &&& 0b1011111#7 = 0b0010011#7) ∧
    t.E.rd.value = s.D.rd.value ∧ t.E.funct3.value = s.D.funct3.value ∧ t.E.imm32.value = imm ∧
    t.E.rs1.value = s.D.rs1.value ∧ t.E.rs2.value = s.D.rs2.value ∧ t.E.isLoad.value = s.D.isLoad.value ∧
    t.E.isStore.value = s.D.isStore.value ∧ t.E.isLUI.value = s.D.isLUI.value ∧
    t.F = s.F ∧ t.D = s.D ∧ t.M = s.M ∧ t.RF = s.RF ∧ t.RAM = s.RAM ∧ t.ROM = s.ROM

/-- 40_pipeline_stages.md R151: the table of the ALU, its sixteen cells, in the arithmetic of 00_scope.md R7. -/
def Obligations.AluTable : Prop :=
  ∀ (alt : Bool) (a b immA : Word) (shamt : BitVec 5),
    let n := b.toNat % 32
    alu 0#3 true false a b immA shamt = BitVec.ofNat 32 (a.toNat + b.toNat) ∧
    alu 0#3 true true a b immA shamt = BitVec.ofInt 32 ((a.toNat : Int) - b.toNat) ∧
    alu 0#3 false alt a b immA shamt = BitVec.ofNat 32 (a.toNat + immA.toNat) ∧
    alu 1#3 true alt a b immA shamt = BitVec.ofNat 32 (a.toNat * 2 ^ n) ∧
    alu 1#3 false alt a b immA shamt = BitVec.ofNat 32 (a.toNat * 2 ^ shamt.toNat) ∧
    alu 2#3 true alt a b immA shamt = (if a.toInt < b.toInt then 1#32 else 0#32) ∧
    alu 2#3 false alt a b immA shamt = (if a.toInt < immA.toInt then 1#32 else 0#32) ∧
    alu 3#3 true alt a b immA shamt = (if a.toNat < b.toNat then 1#32 else 0#32) ∧
    alu 3#3 false alt a b immA shamt = (if a.toNat < immA.toNat then 1#32 else 0#32) ∧
    alu 4#3 true alt a b immA shamt = a ^^^ b ∧ alu 4#3 false alt a b immA shamt = a ^^^ immA ∧
    alu 5#3 true false a b immA shamt = BitVec.ofNat 32 (a.toNat / 2 ^ n) ∧
    alu 5#3 true true a b immA shamt = BitVec.ofInt 32 (a.toInt / 2 ^ n) ∧
    alu 5#3 false alt a b immA shamt = BitVec.ofNat 32 (a.toNat / 2 ^ shamt.toNat) ∧
    alu 6#3 true alt a b immA shamt = a ||| b ∧ alu 6#3 false alt a b immA shamt = a ||| immA ∧
    alu 7#3 true alt a b immA shamt = a &&& b ∧ alu 7#3 false alt a b immA shamt = a &&& immA

/-- 40_pipeline_stages.md R158, R159, R161: what the MemoryAccess tick passes through. `ClassesExclusive` is R181, part
of the invariant of `StepKeepsInvariant`. -/
def Obligations.MemoryTickPassThrough : Prop :=
  ∀ s : State, Settled s → ClassesExclusive s → s.sel = .MEM →
    let t := cycle s
    (s.E.isLUI.value = true → t.M.writebackValue.value = s.E.imm32.value ∧ t.RAM = s.RAM) ∧
    (s.E.isAluOp.value = true → t.M.writebackValue.value = s.E.aluResult.value ∧ t.RAM = s.RAM) ∧
    t.M.rd.value = s.E.rd.value ∧ t.M.isAluOp.value = s.E.isAluOp.value ∧ t.M.isLoad.value = s.E.isLoad.value ∧
    t.M.isLUI.value = s.E.isLUI.value ∧ t.M.isStore.value = s.E.isStore.value

/-- 40_pipeline_stages.md section 6: the store arm, the load arm and no arm of the MemoryAccess tick. The `funct3` values
no arm handles, the held `writebackValue` and the moment a store lands are the spec's decisions D7, D8, D9 and D11
(notes/assumptions/10.md, 13.md, 14.md, 15.md). -/
def Obligations.MemoryTickAccess : Prop :=
  ∀ s : State, Settled s → ClassesExclusive s → s.sel = .MEM →
    let a := s.E.imm32.value + s.E.rs1.value
    let f3 := s.E.funct3.value
    let v := s.E.rs2.value
    let t := cycle s
    (s.E.isStore.value = true →
      t.M.writebackValue = s.M.writebackValue ∧
      (f3 = 0#3 → t.RAM = (busWrite s a (v &&& 0xFF#32) .byte).RAM) ∧
      (f3 = 1#3 → t.RAM = (busWrite s a (v &&& 0xFFFF#32) .half).RAM) ∧
      (f3 = 2#3 → t.RAM = (busWrite s a v .word).RAM) ∧ (2 < f3.toNat → t.RAM = s.RAM)) ∧
    (s.E.isLoad.value = true →
      t.RAM = s.RAM ∧
      (f3 = 0#3 → t.M.writebackValue.value = BitVec.signExtend 32 ((busRead s a .byte).setWidth 8)) ∧
      (f3 = 1#3 → t.M.writebackValue.value = BitVec.signExtend 32 ((busRead s a .half).setWidth 16)) ∧
      (f3 = 2#3 ∨ f3 = 6#3 → t.M.writebackValue.value = busRead s a .word) ∧
      (f3 = 4#3 → t.M.writebackValue.value = busRead s a .byte) ∧
      (f3 = 5#3 → t.M.writebackValue.value = busRead s a .half) ∧
      (f3 = 3#3 ∨ f3 = 7#3 → t.M.writebackValue = s.M.writebackValue)) ∧
    (s.E.isStore.value = false → s.E.isLoad.value = false → s.E.isLUI.value = false → s.E.isAluOp.value = false →
      t.M.writebackValue = s.M.writebackValue ∧ t.RAM = s.RAM)

/-- 40_pipeline_stages.md R165: the WriteBack tick writes `RF[rd]`, for every `rd`, exactly for the three writing
classes, and no other tick writes a register. -/
def Obligations.WriteBackTick : Prop :=
  ∀ s : State, Settled s →
    let t := cycle s
    let writes := s.M.isAluOp.value || s.M.isLoad.value || s.M.isLUI.value
    (s.sel = .WB → writes = true →
      rfValue t s.M.rd.value = s.M.writebackValue.value ∧
      ∀ r : Reg, r ≠ s.M.rd.value → rfValue t r = rfValue s r) ∧
    (s.sel = .WB → writes = false → ∀ r : Reg, rfValue t r = rfValue s r) ∧
    (s.sel ≠ .WB → ∀ r : Reg, rfValue t r = rfValue s r)

/-! ## The bus and the devices -/

/-- 20_memory.md R61, R62, R73: who answers a bus address, and that nothing answers outside the two ranges. -/
def Obligations.BusRouting : Prop :=
  ∀ (s : State) (a v : Word) (wd : Width),
    let top := a.extractLsb' 28 4
    let loc := a.extractLsb' 0 28
    (top = 1#4 → busRead s a wd = devRead s .rom loc wd) ∧ (top = 2#4 → busRead s a wd = devRead s .ram loc wd) ∧
    (top ≠ 1#4 → top ≠ 2#4 → busRead s a wd = 0#32) ∧
    (top = 2#4 → busWrite s a v wd = devWriteRam s loc v wd) ∧ (top ≠ 2#4 → busWrite s a v wd = s)

/-- 20_memory.md R63, R64, R66: the word a device-local address names, and what a byte and a word read take from it. The
half-word slices, which R65 marks as derived, are in `BigEndianView`. -/
def Obligations.DeviceReads : Prop :=
  ∀ (s : State) (d : Device) (loc : BitVec 28),
    let w := deviceWord s d (wordIndex d loc)
    let o := loc.toNat % 4
    wordIndex .rom loc = (loc.extractLsb' 2 18).toNat ∧ wordIndex .ram loc = (loc.extractLsb' 2 20).toNat ∧
    (byteOffset loc).toNat = o ∧
    (devRead s d loc .byte).toNat = w.toNat / 2 ^ (8 * (3 - o)) % 256 ∧
    devRead s d loc .word = w

/-- 20_memory.md section 2: a write changes the named bytes of the one RAM word and nothing else. That only the low 8 or
16 bits of a wider value count is the spec's decision D21 (notes/assumptions/23.md). -/
def Obligations.DeviceWrites : Prop :=
  ∀ (s : State) (loc : BitVec 28) (v : Word), MemoriesWf s →
    let i := wordIndex .ram loc
    let o := loc.toNat % 4
    (∀ wd j, j ≠ i → deviceWord (devWriteRam s loc v wd) .ram j = deviceWord s .ram j) ∧
    (∀ wd, devWriteRam s loc v wd = { s with RAM := (devWriteRam s loc v wd).RAM }) ∧
    (∀ k, k < 4 → byteOf (deviceWord (devWriteRam s loc v .byte) .ram i) k =
      if k = o then v.extractLsb' 0 8 else byteOf (deviceWord s .ram i) k) ∧
    (o % 2 = 0 → ∀ k, k < 4 → byteOf (deviceWord (devWriteRam s loc v .half) .ram i) k =
      if k = o then v.extractLsb' 8 8 else if k = o + 1 then v.extractLsb' 0 8 else byteOf (deviceWord s .ram i) k) ∧
    deviceWord (devWriteRam s loc v .word) .ram i = v

/-- 20_memory.md section 3: big-endian within each aligned word, at every address of the bus. -/
def Obligations.BigEndianView : Prop :=
  ∀ (s : State) (a : Word), a.extractLsb' 0 2 = 0#2 →
    let b0 := (busRead s a .byte).setWidth 8
    let b1 := (busRead s (a + 1#32) .byte).setWidth 8
    let b2 := (busRead s (a + 2#32) .byte).setWidth 8
    let b3 := (busRead s (a + 3#32) .byte).setWidth 8
    busRead s a .word = b0 ++ b1 ++ b2 ++ b3 ∧ busRead s a .half = 0#16 ++ (b0 ++ b1) ∧
    busRead s (a + 2#32) .half = 0#16 ++ (b2 ++ b3)

/-- 20_memory.md R74: a word access drops the two low address bits. -/
def Obligations.WordAlignment : Prop :=
  ∀ (s : State) (a v : Word),
    busRead s a .word = busRead s (a &&& 0xFFFFFFFC#32) .word ∧
    busWrite s a v .word = busWrite s (a &&& 0xFFFFFFFC#32) v .word

/-- 20_memory.md section 6: addresses that differ only in bits 27:20 of the ROM range, or only in bits 27:22 of the RAM
range, name the same byte. -/
def Obligations.Aliasing : Prop :=
  ∀ (s : State) (a b v : Word) (wd : Width),
    (a.extractLsb' 28 4 = 1#4 → b.extractLsb' 28 4 = 1#4 → a.extractLsb' 0 20 = b.extractLsb' 0 20 →
      busRead s a wd = busRead s b wd) ∧
    (a.extractLsb' 28 4 = 2#4 → b.extractLsb' 28 4 = 2#4 → a.extractLsb' 0 22 = b.extractLsb' 0 22 →
      busRead s a wd = busRead s b wd ∧ busWrite s a v wd = busWrite s b v wd)

/-- 20_memory.md section 3, 95_test_vectors.md S2: what is written to RAM is read back at the same address and width, and
no other byte is disturbed: a byte write leaves every other byte alone, an even half-word write every byte but its two,
a write of any width every other word. A half-word at an odd address is left out of the first two (`HalfWordStoreOdd`). -/
def Obligations.StoreThenLoad : Prop :=
  ∀ (s : State) (a v : Word), MemoriesWf s → a.extractLsb' 28 4 = 2#4 →
    busRead (busWrite s a v .byte) a .byte = (v.extractLsb' 0 8).setWidth 32 ∧
    (a.getLsbD 0 = false → busRead (busWrite s a v .half) a .half = (v.extractLsb' 0 16).setWidth 32) ∧
    busRead (busWrite s a v .word) a .word = v ∧
    (∀ b, ramByteAt b ≠ ramByteAt a → busRead (busWrite s a v .byte) b .byte = busRead s b .byte) ∧
    (a.getLsbD 0 = false → ∀ b, ramByteAt b ≠ ramByteAt a → ramByteAt b ≠ ramByteAt (a + 1#32) →
      busRead (busWrite s a v .half) b .byte = busRead s b .byte) ∧
    (∀ wd b wd', ramWordAt b ≠ ramWordAt a → busRead (busWrite s a v wd) b wd' = busRead s b wd')

/-! ## Reset, the host and the launch -/

/-- 20_memory.md section 2, 70_reset_and_hazards.md section 5: the one `load`. The two refusals are the spec's decision
D12 (notes/assumptions/22.md). -/
def Obligations.RomAfterLoad : Prop :=
  ∀ (s : State) (words : List Word),
    (s.romLoaded = false → words.length ≤ 262144 →
      ∃ t, hostLoad words s = .next t ∧ t = { s with ROM := t.ROM, romLoaded := true } ∧
        Memory.wf .rom t.ROM = true ∧
        ∀ i, i < 262144 → busRead t (0x10000000#32 + BitVec.ofNat 32 (4 * i)) .word = words.getD i 0xFFFFFFFF#32) ∧
    (s.romLoaded = false → 262144 < words.length → hostLoad words s = .refused .loadTooLong) ∧
    (s.romLoaded = true → hostLoad words s = .refused .secondLoad)

/-- 10_state.md section 6 and 20_memory.md section 2: after the load no tick, no step and no bus write changes ROM. -/
def Obligations.RomConstant : Prop :=
  ∀ s : State,
    ((cycle s).ROM = s.ROM ∧ (cycle s).romLoaded = s.romLoaded) ∧
    (∀ t, step s = .next t → t.ROM = s.ROM ∧ t.romLoaded = s.romLoaded) ∧
    (∀ a v wd, (hostBusWrite s a v wd).ROM = s.ROM)

/-- 70_reset_and_hazards.md section 2: before the load nothing runs, the spec's decision D12 (notes/assumptions/5.md);
after it every tick and every step has a next state. -/
def Obligations.LaunchNeedsLoad : Prop :=
  ∀ s : State,
    (s.romLoaded = false → step s = .refused .launchBeforeLoad ∧ hostCycle s = .refused .launchBeforeLoad) ∧
    (s.romLoaded = true → (∃ t, step s = .next t) ∧ hostCycle s = .next (cycle s))

/-- 10_state.md section 8: the value of every piece of state after reset, both values of every cell (`Settled`). Only
that of `pc` is the source's; `sel`, every other cell, the registers and RAM are the spec's decision D2
(notes/assumptions/1.md to 4.md). ROM is not loaded, so that its content is a free value (D12, 5.md). -/
def Obligations.ResetState : Prop :=
  Settled State.reset ∧
  State.reset.F.pc = { committed := 0x10000000#32, staged := 0x10000000#32 } ∧ State.reset.sel = .IF ∧
  State.reset.F.inst.value = 0#32 ∧
  (let d := State.reset.D
   d.inst.value = 0#32 ∧ d.opcode.value = 0#7 ∧ d.rd.value = 0#5 ∧ d.funct3.value = 0#3 ∧ d.rs1.value = 0#32 ∧
   d.rs2.value = 0#32 ∧ d.shamt.value = 0#5 ∧ d.funct7.value = 0#7 ∧ d.imm32.value = 0#32 ∧
   d.isAluOp.value = false ∧ d.isStore.value = false ∧ d.isLoad.value = false ∧ d.isLUI.value = false) ∧
  (let e := State.reset.E
   e.aluResult.value = 0#32 ∧ e.rd.value = 0#5 ∧ e.isAluOp.value = false ∧ e.isLoad.value = false ∧
   e.isLUI.value = false ∧ e.isStore.value = false ∧ e.rs1.value = 0#32 ∧ e.rs2.value = 0#32 ∧
   e.funct3.value = 0#3 ∧ e.imm32.value = 0#32) ∧
  (let m := State.reset.M
   m.writebackValue.value = 0#32 ∧ m.rd.value = 0#5 ∧ m.isAluOp.value = false ∧ m.isLoad.value = false ∧
   m.isLUI.value = false ∧ m.isStore.value = false) ∧
  (∀ r : Reg, rfValue State.reset r = 0#32) ∧
  State.reset.RAM = [] ∧ (∀ i, i < 1048576 → deviceWord State.reset .ram i = 0#32) ∧
  State.reset.romLoaded = false ∧ (∀ i, i < 262144 → deviceWord State.reset .rom i = Config.romBeforeLoad i)

/-- 10_state.md section 8: the invariant of `StepKeepsInvariant` holds after reset. -/
def Obligations.ResetInvariant : Prop := Inv State.reset

/-- 70_reset_and_hazards.md section 5: every launch with a program that fits gives a state that meets the invariant, about
to fetch at the ROM base, with every preset in place: the registers, `M.writebackValue`, RAM as the preset bus writes
leave the reset RAM when they are made in order, and ROM the program and then the fill word. Everything else is as after
reset. Presets are the spec's decision D20 (notes/assumptions/27.md), the reset values D2 (1.md to 4.md). -/
def Obligations.LaunchState : Prop :=
  ∀ l : Launch, l.words.length ≤ 262144 →
    ∃ t, launch l = .next t ∧ Inv t ∧ t.romLoaded = true ∧ t.sel = .IF ∧ t.F.pc.value = 0x10000000#32 ∧
      (∀ r : Reg, rfValue t r = l.registers[r.toNat]'r.isLt) ∧ t.M.writebackValue.value = l.writebackValue ∧
      t.RAM = (l.ramWrites.foldl (fun s w => busWrite s w.1 w.2.1 w.2.2) State.reset).RAM ∧
      (∀ i, i < 262144 →
        busRead t (0x10000000#32 + BitVec.ofNat 32 (4 * i)) .word = l.words.getD i 0xFFFFFFFF#32) ∧
      t = { State.reset with
            RF := t.RF
            M := { State.reset.M with writebackValue := t.M.writebackValue }
            RAM := t.RAM
            ROM := t.ROM
            romLoaded := true }

/-! ## The step -/

/-- The invariant: every cell settled (R41), `pc` aligned (R26), both arrays in canonical form, the Decode cells those of
one word (R145, R147), at most one class in flight (R181). Every step keeps it, from every state that meets it. -/
def Obligations.StepKeepsInvariant : Prop :=
  ∀ s t : State, Inv s → step s = .next t → Inv t

/-- 10_state.md section 7, 40_pipeline_stages.md section 2: a tick settles every cell, from any state, and keeps the
invariant at every tick boundary, not only at instruction boundaries. -/
def Obligations.TickKeepsInvariant : Prop :=
  ∀ s : State, Settled (cycle s) ∧ (Inv s → Inv (cycle s))

/-- 40_pipeline_stages.md section 8: at a Fetch boundary of a loaded machine, a step runs the instruction the fetched word
decodes to. -/
def Obligations.StepRunsDecoded : Prop :=
  ∀ (s : State) (i : Instr), s.romLoaded = true → s.sel = .IF → decode (busRead s s.F.pc.value .word) = i →
    step s = exec i s

/-- 20_memory.md section 3: the four bytes at an aligned `pc`, lowest address first, decode to the instruction the step
runs, with nothing left over. -/
def Obligations.FetchedBytesDecode : Prop :=
  ∀ s : State, PcAligned s →
    let byteAt (k : Nat) : Byte := (busRead s (s.F.pc.value + BitVec.ofNat 32 k) .byte).setWidth 8
    decodeBytes [byteAt 0, byteAt 1, byteAt 2, byteAt 3] = .ok (decode (fetchWord s), [])

/-- The model's own interface (notes/assumptions/24.md): the word `withFetchWord` places is the one the next step
runs. -/
def Obligations.PlacedWordRuns : Prop :=
  ∀ (s : State) (nbits w : Nat), MemoriesWf s →
    step (s.withFetchWord nbits w) = exec (decode (tableWord nbits w)) (s.withFetchWord nbits w)

/-- 40_pipeline_stages.md section 8: the instruction level and the tick level agree. One step from a Fetch boundary is
five ticks, whatever the word, the operands and the state. -/
def Obligations.StepIsFiveTicks : Prop :=
  ∀ s : State, s.romLoaded = true → s.sel = .IF → step s = .next (runTicks 5 s)

/-- 40_pipeline_stages.md section 8, 60_exceptions.md section 1, 70_reset_and_hazards.md section 6: nothing traps and
nothing halts. From a Fetch boundary of a loaded machine a run of any number of steps completes, equals five times as
many ticks, and leaves `pc` four times as many bytes further. -/
def Obligations.RunsForever : Prop :=
  ∀ (n : Nat) (s : State), s.romLoaded = true → s.sel = .IF →
    Runs n s (runTicks (5 * n) s) ∧ (runTicks (5 * n) s).sel = .IF ∧
    (runTicks (5 * n) s).F.pc.value = s.F.pc.value + BitVec.ofNat 32 (4 * n)

/-- 40_pipeline_stages.md section 8, stopping inside an instruction: `pc` moves in the first tick, a store lands in the
fourth, a register changes in the fifth only. That a step from inside an instruction runs the rest of it is the model's
choice (notes/assumptions/17.md). -/
def Obligations.MidInstruction : Prop :=
  ∀ s : State, Settled s → s.sel = .IF →
    (∀ k, 1 ≤ k → k ≤ 5 → (runTicks k s).F.pc.value = s.F.pc.value + 4#32) ∧
    (∀ k, k ≤ 3 → (runTicks k s).RAM = s.RAM) ∧ (runTicks 4 s).RAM = (runTicks 5 s).RAM ∧
    (∀ k, k ≤ 4 → ∀ r : Reg, rfValue (runTicks k s) r = rfValue s r) ∧
    (s.romLoaded = true → ∀ k, 1 ≤ k → k ≤ 4 → step (runTicks k s) = .next (runTicks 5 s))

/-- 60_exceptions.md section 1, 10_state.md section 3: no word, no operand and no address makes an instruction stop, and
each one ends at the next Fetch boundary with `pc` advanced by 4 and ROM as it was. -/
def Obligations.NoInstructionStops : Prop :=
  ∀ (i : Instr) (s : State), ∃ t, exec i s = .next t ∧ StepsPast s t

/-! ## What each instruction does -/

/-- 41_alu_register.md R201 ADD, R202 SUB: modulo 2^32, no flag, no exception. -/
def Obligations.AddSub : Prop :=
  ∀ (s : State) (rd rs1 rs2 : Reg) (f7 : BitVec 7), Settled s →
    let a := operand s rs1
    let b := operand s rs2
    (f7.getLsbD 5 = false → decode (f7 ++ rs2 ++ rs1 ++ 0b000#3 ++ rd ++ 0b0110011#7) = .add rd rs1 rs2 f7) ∧
    (f7.getLsbD 5 = true → decode (f7 ++ rs2 ++ rs1 ++ 0b000#3 ++ rd ++ 0b0110011#7) = .sub rd rs1 rs2 f7) ∧
    (∃ t, exec (.add rd rs1 rs2 f7) s = .next t ∧ WritesRegister s t rd (BitVec.ofNat 32 (a.toNat + b.toNat))) ∧
    (∃ t, exec (.sub rd rs1 rs2 f7) s = .next t ∧ WritesRegister s t rd (BitVec.ofInt 32 ((a.toNat : Int) - b.toNat)))

/-- 41_alu_register.md R203 SLL, R207 SRL, R208 SRA: only the low 5 bits of the second operand count. -/
def Obligations.RegisterShifts : Prop :=
  ∀ (s : State) (rd rs1 rs2 : Reg) (f7 : BitVec 7), Settled s →
    let a := operand s rs1
    let n := (operand s rs2).toNat % 32
    decode (f7 ++ rs2 ++ rs1 ++ 0b001#3 ++ rd ++ 0b0110011#7) = .sll rd rs1 rs2 f7 ∧
    (f7.getLsbD 5 = false → decode (f7 ++ rs2 ++ rs1 ++ 0b101#3 ++ rd ++ 0b0110011#7) = .srl rd rs1 rs2 f7) ∧
    (f7.getLsbD 5 = true → decode (f7 ++ rs2 ++ rs1 ++ 0b101#3 ++ rd ++ 0b0110011#7) = .sra rd rs1 rs2 f7) ∧
    (∃ t, exec (.sll rd rs1 rs2 f7) s = .next t ∧ WritesRegister s t rd (BitVec.ofNat 32 (a.toNat * 2 ^ n))) ∧
    (∃ t, exec (.srl rd rs1 rs2 f7) s = .next t ∧ WritesRegister s t rd (BitVec.ofNat 32 (a.toNat / 2 ^ n))) ∧
    (∃ t, exec (.sra rd rs1 rs2 f7) s = .next t ∧ WritesRegister s t rd (BitVec.ofInt 32 (a.toInt / 2 ^ n)))

/-- 41_alu_register.md R204 SLT, R205 SLTU, R206 XOR, R209 OR, R210 AND. -/
def Obligations.RegisterCompareLogic : Prop :=
  ∀ (s : State) (rd rs1 rs2 : Reg) (f7 : BitVec 7), Settled s →
    let a := operand s rs1
    let b := operand s rs2
    decode (f7 ++ rs2 ++ rs1 ++ 0b010#3 ++ rd ++ 0b0110011#7) = .slt rd rs1 rs2 f7 ∧
    decode (f7 ++ rs2 ++ rs1 ++ 0b011#3 ++ rd ++ 0b0110011#7) = .sltu rd rs1 rs2 f7 ∧
    decode (f7 ++ rs2 ++ rs1 ++ 0b100#3 ++ rd ++ 0b0110011#7) = .xor rd rs1 rs2 f7 ∧
    decode (f7 ++ rs2 ++ rs1 ++ 0b110#3 ++ rd ++ 0b0110011#7) = .or rd rs1 rs2 f7 ∧
    decode (f7 ++ rs2 ++ rs1 ++ 0b111#3 ++ rd ++ 0b0110011#7) = .and rd rs1 rs2 f7 ∧
    (∃ t, exec (.slt rd rs1 rs2 f7) s = .next t ∧ WritesRegister s t rd (if a.toInt < b.toInt then 1#32 else 0#32)) ∧
    (∃ t, exec (.sltu rd rs1 rs2 f7) s = .next t ∧ WritesRegister s t rd (if a.toNat < b.toNat then 1#32 else 0#32)) ∧
    (∃ t, exec (.xor rd rs1 rs2 f7) s = .next t ∧ WritesRegister s t rd (a ^^^ b)) ∧
    (∃ t, exec (.or rd rs1 rs2 f7) s = .next t ∧ WritesRegister s t rd (a ||| b)) ∧
    (∃ t, exec (.and rd rs1 rs2 f7) s = .next t ∧ WritesRegister s t rd (a &&& b))

/-- 42_alu_immediate.md R221 ADDI, R222 SLTI, R223 SLTIU, R224 XORI, R225 ORI, R226 ANDI, over the sign-extended 12-bit
immediate. -/
def Obligations.ImmediateArithmetic : Prop :=
  ∀ (s : State) (rd rs1 : Reg) (imm : BitVec 12), Settled s →
    let a := operand s rs1
    let x : Word := BitVec.signExtend 32 imm
    decode (imm ++ rs1 ++ 0b000#3 ++ rd ++ 0b0010011#7) = .addi rd rs1 imm ∧
    decode (imm ++ rs1 ++ 0b010#3 ++ rd ++ 0b0010011#7) = .slti rd rs1 imm ∧
    decode (imm ++ rs1 ++ 0b011#3 ++ rd ++ 0b0010011#7) = .sltiu rd rs1 imm ∧
    decode (imm ++ rs1 ++ 0b100#3 ++ rd ++ 0b0010011#7) = .xori rd rs1 imm ∧
    decode (imm ++ rs1 ++ 0b110#3 ++ rd ++ 0b0010011#7) = .ori rd rs1 imm ∧
    decode (imm ++ rs1 ++ 0b111#3 ++ rd ++ 0b0010011#7) = .andi rd rs1 imm ∧
    (∃ t, exec (.addi rd rs1 imm) s = .next t ∧ WritesRegister s t rd (BitVec.ofInt 32 (a.toNat + imm.toInt))) ∧
    (∃ t, exec (.slti rd rs1 imm) s = .next t ∧ WritesRegister s t rd (if a.toInt < imm.toInt then 1#32 else 0#32)) ∧
    (∃ t, exec (.sltiu rd rs1 imm) s = .next t ∧ WritesRegister s t rd (if a.toNat < x.toNat then 1#32 else 0#32)) ∧
    (∃ t, exec (.xori rd rs1 imm) s = .next t ∧ WritesRegister s t rd (a ^^^ x)) ∧
    (∃ t, exec (.ori rd rs1 imm) s = .next t ∧ WritesRegister s t rd (a ||| x)) ∧
    (∃ t, exec (.andi rd rs1 imm) s = .next t ∧ WritesRegister s t rd (a &&& x))

/-- 42_alu_immediate.md R227 SLLI, R228 SRLI, R229 SRAI: SRAI shifts logically, exactly as SRLI. -/
def Obligations.ImmediateShifts : Prop :=
  ∀ (s : State) (rd rs1 : Reg) (shamt : BitVec 5) (upper : BitVec 7), Settled s →
    let a := operand s rs1
    decode (upper ++ shamt ++ rs1 ++ 0b001#3 ++ rd ++ 0b0010011#7) = .slli rd rs1 shamt upper ∧
    (upper.getLsbD 5 = false →
      decode (upper ++ shamt ++ rs1 ++ 0b101#3 ++ rd ++ 0b0010011#7) = .srli rd rs1 shamt upper) ∧
    (upper.getLsbD 5 = true →
      decode (upper ++ shamt ++ rs1 ++ 0b101#3 ++ rd ++ 0b0010011#7) = .srai rd rs1 shamt upper) ∧
    (∃ t, exec (.slli rd rs1 shamt upper) s = .next t ∧
      WritesRegister s t rd (BitVec.ofNat 32 (a.toNat * 2 ^ shamt.toNat))) ∧
    (∃ t, exec (.srli rd rs1 shamt upper) s = .next t ∧
      WritesRegister s t rd (BitVec.ofNat 32 (a.toNat / 2 ^ shamt.toNat))) ∧
    (∃ t, exec (.srai rd rs1 shamt upper) s = .next t ∧
      WritesRegister s t rd (BitVec.ofNat 32 (a.toNat / 2 ^ shamt.toNat)))

/-- 43_lui.md R240: `rd` takes `w & 0xFFFFF000`, `imm32` and `M.writebackValue` hold the same value. -/
def Obligations.LoadUpperImmediate : Prop :=
  ∀ (s : State) (w : Word), Settled s → w.extractLsb' 0 7 = 0b0110111#7 →
    let rd := w.extractLsb' 7 5
    let v := w &&& 0xFFFFF000#32
    decode w = .lui rd (w.extractLsb' 12 20) ∧
    ∃ t, exec (.lui rd (w.extractLsb' 12 20)) s = .next t ∧ WritesRegister s t rd v ∧
      t.D.imm32.value = v ∧ t.E.imm32.value = v

/-- 44_loads.md R251 LB, R254 LBU, at every address. -/
def Obligations.ByteLoads : Prop :=
  ∀ (s : State) (rd rs1 : Reg) (imm : BitVec 12), Settled s →
    let b := busRead s (operand s rs1 + BitVec.signExtend 32 imm) .byte
    decode (imm ++ rs1 ++ 0b000#3 ++ rd ++ 0b0000011#7) = .lb rd rs1 imm ∧
    decode (imm ++ rs1 ++ 0b100#3 ++ rd ++ 0b0000011#7) = .lbu rd rs1 imm ∧
    (∃ t, exec (.lb rd rs1 imm) s = .next t ∧
      WritesRegister s t rd (BitVec.ofInt 32 (if b.toNat < 128 then (b.toNat : Int) else (b.toNat : Int) - 256))) ∧
    (∃ t, exec (.lbu rd rs1 imm) s = .next t ∧ WritesRegister s t rd b)

/-- 44_loads.md R252 LH, R255 LHU, at every even address. -/
def Obligations.HalfWordLoads : Prop :=
  ∀ (s : State) (rd rs1 : Reg) (imm : BitVec 12), Settled s →
    let a := operand s rs1 + BitVec.signExtend 32 imm
    let h := busRead s a .half
    decode (imm ++ rs1 ++ 0b001#3 ++ rd ++ 0b0000011#7) = .lh rd rs1 imm ∧
    decode (imm ++ rs1 ++ 0b101#3 ++ rd ++ 0b0000011#7) = .lhu rd rs1 imm ∧
    (a.getLsbD 0 = false →
      (∃ t, exec (.lh rd rs1 imm) s = .next t ∧
        WritesRegister s t rd (BitVec.ofInt 32 (if h.toNat < 32768 then (h.toNat : Int) else (h.toNat : Int) - 65536))) ∧
      (∃ t, exec (.lhu rd rs1 imm) s = .next t ∧ WritesRegister s t rd h))

/-- 20_memory.md section 4, the open parameter `HALF_ODD_OFFSET_POLICY`: at an odd address the model runs LH and LHU on a
FREE 16-bit value of the containing word, of which nothing is known (notes/assumptions/6.md, DESIGN CHOICE); outside
both devices' ranges the value is 0 as for every read. -/
def Obligations.HalfWordLoadsOdd : Prop :=
  ∀ (s : State) (rd rs1 : Reg) (imm : BitVec 12), Settled s →
    let a := operand s rs1 + BitVec.signExtend 32 imm
    a.getLsbD 0 = true →
    ∃ h : BitVec 16,
      (∀ d, route a = some d → h = Config.halfOddRead d (a.extractLsb' 0 2) (busRead s a .word)) ∧
      (route a = none → h = 0#16) ∧
      (∃ t, exec (.lh rd rs1 imm) s = .next t ∧ WritesRegister s t rd (h.signExtend 32)) ∧
      (∃ t, exec (.lhu rd rs1 imm) s = .next t ∧ WritesRegister s t rd (h.setWidth 32))

/-- 44_loads.md R253 LW: the word that contains the address. -/
def Obligations.WordLoad : Prop :=
  ∀ (s : State) (rd rs1 : Reg) (imm : BitVec 12), Settled s →
    let w := busRead s (operand s rs1 + BitVec.signExtend 32 imm) .word
    decode (imm ++ rs1 ++ 0b010#3 ++ rd ++ 0b0000011#7) = .lw rd rs1 imm ∧
    ∃ t, exec (.lw rd rs1 imm) s = .next t ∧ WritesRegister s t rd w

/-- 44_loads.md, the three `funct3` values RV32I has no load for. 6 acts exactly as LW, which the spec derives from the
source's formulas (notes/assumptions/25.md). 3 and 7 read no bus and write the held `M.writebackValue` to `rd`, the
spec's decision D8 (14.md). That stores hold that cell too, so that the value is the latest ALU operation's, LUI's or
well-formed load's, is D9 (15.md). -/
def Obligations.RemainingLoads : Prop :=
  ∀ (s : State) (rd rs1 : Reg) (imm : BitVec 12), Settled s →
    let w := busRead s (operand s rs1 + BitVec.signExtend 32 imm) .word
    let held := s.M.writebackValue.value
    (∃ t, exec (.loadF3is6 rd rs1 imm) s = .next t ∧ WritesRegister s t rd w) ∧
    (∃ t, exec (.loadF3is3 rd rs1 imm) s = .next t ∧ WritesRegister s t rd held) ∧
    (∃ t, exec (.loadF3is7 rd rs1 imm) s = .next t ∧ WritesRegister s t rd held) ∧
    (∀ i ∈ [Instr.sb rs1 rd imm, .sh rs1 rd imm, .sw rs1 rd imm], ∀ t, exec i s = .next t → HoldsWritebackValue s t)

/-- 45_stores.md, SB: one byte of RAM changes, the one the effective address names; none does outside the RAM range.
That the word decodes so rests on the S-type bit positions, which are from general knowledge (93 G4, PRESUMED:
notes/assumptions/9.md). -/
def Obligations.ByteStore : Prop :=
  ∀ (s : State) (rs1 rs2 : Reg) (imm : BitVec 12), Settled s → MemoriesWf s →
    let a := effectiveAddress s rs1 imm
    decode (imm.extractLsb' 5 7 ++ rs2 ++ rs1 ++ 0b000#3 ++ imm.extractLsb' 0 5 ++ 0b0100011#7) = .sb rs1 rs2 imm ∧
    a = operand s rs1 + BitVec.signExtend 32 imm ∧
    ∃ t, exec (.sb rs1 rs2 imm) s = .next t ∧ WritesNoRegister s t ∧
      ∀ x : Word, busRead t x .byte =
        if (ramByteAt a).isSome ∧ ramByteAt x = ramByteAt a then ((operand s rs2).extractLsb' 0 8).setWidth 32
        else busRead s x .byte

/-- 45_stores.md, SH at an even address: the high byte at the effective address, the low byte one above it. That the word
decodes so rests on the S-type bit positions, which are from general knowledge (93 G4, PRESUMED:
notes/assumptions/9.md). -/
def Obligations.HalfWordStore : Prop :=
  ∀ (s : State) (rs1 rs2 : Reg) (imm : BitVec 12), Settled s → MemoriesWf s →
    let a := effectiveAddress s rs1 imm
    decode (imm.extractLsb' 5 7 ++ rs2 ++ rs1 ++ 0b001#3 ++ imm.extractLsb' 0 5 ++ 0b0100011#7) = .sh rs1 rs2 imm ∧
    a = operand s rs1 + BitVec.signExtend 32 imm ∧
    (a.getLsbD 0 = false →
      ∃ t, exec (.sh rs1 rs2 imm) s = .next t ∧ WritesNoRegister s t ∧
        ∀ x : Word, busRead t x .byte =
          if (ramByteAt a).isSome ∧ ramByteAt x = ramByteAt a then ((operand s rs2).extractLsb' 8 8).setWidth 32
          else if (ramByteAt a).isSome ∧ ramByteAt x = ramByteAt (a + 1#32) then
            ((operand s rs2).extractLsb' 0 8).setWidth 32
          else busRead s x .byte)

/-- 20_memory.md section 4, the open parameter `HALF_ODD_OFFSET_POLICY`: at an odd address the model runs SH, the
containing RAM word becomes a FREE word of which nothing is known, and every other word stays
(notes/assumptions/7.md, DESIGN CHOICE). -/
def Obligations.HalfWordStoreOdd : Prop :=
  ∀ (s : State) (rs1 rs2 : Reg) (imm : BitVec 12), Settled s → MemoriesWf s →
    let a := effectiveAddress s rs1 imm
    a.getLsbD 0 = true →
    ∃ t, exec (.sh rs1 rs2 imm) s = .next t ∧ WritesNoRegister s t ∧
      (∀ x : Word, (ramWordAt a).isSome → ramWordAt x = ramWordAt a → busRead t x .word =
        Config.halfOddWrite (a.extractLsb' 0 2) (busRead s a .word) ((operand s rs2).extractLsb' 0 16)) ∧
      (∀ (x : Word) (wd : Width), ¬((ramWordAt a).isSome ∧ ramWordAt x = ramWordAt a) →
        busRead t x wd = busRead s x wd)

/-- 45_stores.md, SW: the four bytes of the RAM word that contains the effective address, most significant first. That the
word decodes so rests on the S-type bit positions, which are from general knowledge (93 G4, PRESUMED:
notes/assumptions/9.md). -/
def Obligations.WordStore : Prop :=
  ∀ (s : State) (rs1 rs2 : Reg) (imm : BitVec 12), Settled s → MemoriesWf s →
    let a := effectiveAddress s rs1 imm
    let v := operand s rs2
    decode (imm.extractLsb' 5 7 ++ rs2 ++ rs1 ++ 0b010#3 ++ imm.extractLsb' 0 5 ++ 0b0100011#7) = .sw rs1 rs2 imm ∧
    a = operand s rs1 + BitVec.signExtend 32 imm ∧
    ∃ t, exec (.sw rs1 rs2 imm) s = .next t ∧ WritesNoRegister s t ∧
      (∀ x : Word, (busRead t x .byte).toNat =
        if (ramWordAt a).isSome ∧ ramWordAt x = ramWordAt a then v.toNat / 2 ^ (8 * (3 - x.toNat % 4)) % 256
        else (busRead s x .byte).toNat) ∧
      ((ramWordAt a).isSome → busRead t a .word = v)

/-- 45_stores.md, the stores with `funct3` 3 to 7: nothing but `pc`, the spec's decisions D7
and D9 (notes/assumptions/13.md, 15.md). -/
def Obligations.UnhandledStores : Prop :=
  ∀ (s : State) (rs1 rs2 : Reg) (imm : BitVec 12), Settled s →
    ∀ i ∈ [Instr.storeF3is3 rs1 rs2 imm, .storeF3is4 rs1 rs2 imm, .storeF3is5 rs1 rs2 imm, .storeF3is6 rs1 rs2 imm,
        .storeF3is7 rs1 rs2 imm],
      ∃ t, exec i s = .next t ∧ WritesNoRegister s t ∧ HoldsWritebackValue s t ∧ MemoryUnchanged s t

/-- 46_unrecognized.md: the seven rows of no class change nothing but `pc`; `D.imm32` holds and the four class flags are
false. That `M.writebackValue` holds is the spec's decision D9 (notes/assumptions/15.md). -/
def Obligations.NoClassIsNoOp : Prop :=
  ∀ (s : State) (rest : BitVec 25) (word : Word), Settled s →
    ∀ i ∈ [Instr.branch rest, .jal rest, .jalr rest, .auipc rest, .miscMem rest, .system rest, .unrecognized word],
      ∃ t, exec i s = .next t ∧ WritesNoRegister s t ∧ HoldsWritebackValue s t ∧ MemoryUnchanged s t ∧
        t.D.imm32.value = s.D.imm32.value ∧ t.D.isAluOp.value = false ∧ t.D.isStore.value = false ∧
        t.D.isLoad.value = false ∧ t.D.isLUI.value = false
end

