-- ==== Sys2Proof/Laws/Encoding.lean ====
section
/-! SUPPORT. The fields of an encoded word, format by format, and the word its fields make. -/

set_option Elab.async false

namespace Sys2Proof

/-! ## Format R -/

section FormatR

variable (f7 : BitVec 7) (rs2 rs1 : Reg) (f3 : BitVec 3) (rd : Reg) (op : BitVec 7)

@[simp] theorem opcodeOf_encodeR : opcodeOf (encodeR f7 rs2 rs1 f3 rd op) = op := by
  unfold opcodeOf encodeR; ext i hi
  simp [BitVec.getElem_extractLsb']; grind
@[simp] theorem rdOf_encodeR : rdOf (encodeR f7 rs2 rs1 f3 rd op) = rd := by
  unfold rdOf encodeR; ext i hi
  simp [BitVec.getElem_extractLsb']; grind
@[simp] theorem funct3Of_encodeR : funct3Of (encodeR f7 rs2 rs1 f3 rd op) = f3 := by
  unfold funct3Of encodeR; ext i hi
  simp [BitVec.getElem_extractLsb']; grind
@[simp] theorem rs1Of_encodeR : rs1Of (encodeR f7 rs2 rs1 f3 rd op) = rs1 := by
  unfold rs1Of encodeR; ext i hi
  simp [BitVec.getElem_extractLsb']; grind
@[simp] theorem rs2Of_encodeR : rs2Of (encodeR f7 rs2 rs1 f3 rd op) = rs2 := by
  unfold rs2Of encodeR; ext i hi
  simp [BitVec.getElem_extractLsb']; grind
@[simp] theorem funct7Of_encodeR : funct7Of (encodeR f7 rs2 rs1 f3 rd op) = f7 := by
  unfold funct7Of encodeR; ext i hi
  simp [BitVec.getElem_extractLsb']; grind

end FormatR

/-- The word its own fields make (format R). -/
theorem encodeR_fields (w : Word) : encodeR (funct7Of w) (rs2Of w) (rs1Of w) (funct3Of w) (rdOf w) (opcodeOf w) = w := by
  unfold encodeR funct7Of rs2Of rs1Of funct3Of rdOf opcodeOf; apply BitVec.eq_of_getLsbD_eq; intro i hi
  simp only [BitVec.getLsbD_append, BitVec.getLsbD_extractLsb']; grind

/-! ## Format I -/

section FormatI

variable (imm : BitVec 12) (rs1 : Reg) (f3 : BitVec 3) (rd : Reg) (op : BitVec 7)

@[simp] theorem opcodeOf_encodeI : opcodeOf (encodeI imm rs1 f3 rd op) = op := by
  unfold opcodeOf encodeI; ext i hi
  simp [BitVec.getElem_extractLsb']; grind
@[simp] theorem rdOf_encodeI : rdOf (encodeI imm rs1 f3 rd op) = rd := by
  unfold rdOf encodeI; ext i hi
  simp [BitVec.getElem_extractLsb']; grind
@[simp] theorem funct3Of_encodeI : funct3Of (encodeI imm rs1 f3 rd op) = f3 := by
  unfold funct3Of encodeI; ext i hi
  simp [BitVec.getElem_extractLsb']; grind
@[simp] theorem rs1Of_encodeI : rs1Of (encodeI imm rs1 f3 rd op) = rs1 := by
  unfold rs1Of encodeI; ext i hi
  simp [BitVec.getElem_extractLsb']; grind
@[simp] theorem fieldI_encodeI : fieldI (encodeI imm rs1 f3 rd op) = imm := by
  unfold fieldI encodeI; ext i hi
  simp [BitVec.getElem_extractLsb']; grind

end FormatI

/-- The word its own fields make (format I). -/
theorem encodeI_fields (w : Word) : encodeI (fieldI w) (rs1Of w) (funct3Of w) (rdOf w) (opcodeOf w) = w := by
  unfold encodeI fieldI rs1Of funct3Of rdOf opcodeOf; apply BitVec.eq_of_getLsbD_eq; intro i hi
  simp only [BitVec.getLsbD_append, BitVec.getLsbD_extractLsb']; grind

/-! ## Format S -/

section FormatS

variable (imm : BitVec 12) (rs2 rs1 : Reg) (f3 : BitVec 3)

@[simp] theorem opcodeOf_encodeS : opcodeOf (encodeS imm rs2 rs1 f3) = Opcode.store := by
  unfold opcodeOf encodeS; ext i hi
  simp [BitVec.getElem_extractLsb']; grind
@[simp] theorem funct3Of_encodeS : funct3Of (encodeS imm rs2 rs1 f3) = f3 := by
  unfold funct3Of encodeS; ext i hi
  simp [BitVec.getElem_extractLsb']; grind
@[simp] theorem rs1Of_encodeS : rs1Of (encodeS imm rs2 rs1 f3) = rs1 := by
  unfold rs1Of encodeS; ext i hi
  simp [BitVec.getElem_extractLsb']; grind
@[simp] theorem rs2Of_encodeS : rs2Of (encodeS imm rs2 rs1 f3) = rs2 := by
  unfold rs2Of encodeS; ext i hi
  simp [BitVec.getElem_extractLsb']; grind
@[simp] theorem fieldS_encodeS : fieldS (encodeS imm rs2 rs1 f3) = imm := by
  unfold fieldS funct7Of rdOf encodeS; apply BitVec.eq_of_getLsbD_eq; intro i hi
  simp only [BitVec.getLsbD_append, BitVec.getLsbD_extractLsb']; grind

end FormatS

/-! ## Format U -/

section FormatU

variable (imm20 : BitVec 20) (rd : Reg) (op : BitVec 7)

@[simp] theorem opcodeOf_encodeU : opcodeOf (encodeU imm20 rd op) = op := by
  unfold opcodeOf encodeU; ext i hi
  simp [BitVec.getElem_extractLsb']; grind
@[simp] theorem rdOf_encodeU : rdOf (encodeU imm20 rd op) = rd := by
  unfold rdOf encodeU; ext i hi
  simp [BitVec.getElem_extractLsb']; grind
@[simp] theorem fieldU_encodeU : fieldU (encodeU imm20 rd op) = imm20 := by
  unfold fieldU encodeU; ext i hi
  simp [BitVec.getElem_extractLsb']; grind

end FormatU

/-- The word its own fields make (format U). -/
theorem encodeU_fields (w : Word) : encodeU (fieldU w) (rdOf w) (opcodeOf w) = w := by
  unfold encodeU fieldU rdOf opcodeOf; apply BitVec.eq_of_getLsbD_eq; intro i hi
  simp only [BitVec.getLsbD_append, BitVec.getLsbD_extractLsb']; grind

/-! ## Format Rest -/

section FormatRest

variable (rest : BitVec 25) (op : BitVec 7)

@[simp] theorem opcodeOf_encodeRest : opcodeOf (encodeRest rest op) = op := by
  unfold opcodeOf encodeRest; ext i hi
  simp [BitVec.getElem_extractLsb']; grind
@[simp] theorem fieldRest_encodeRest : fieldRest (encodeRest rest op) = rest := by
  unfold fieldRest encodeRest; ext i hi
  simp [BitVec.getElem_extractLsb']; grind

end FormatRest

/-- The word its own fields make (format Rest). -/
theorem encodeRest_fields (w : Word) : encodeRest (fieldRest w) (opcodeOf w) = w := by
  unfold encodeRest fieldRest opcodeOf; apply BitVec.eq_of_getLsbD_eq; intro i hi
  simp only [BitVec.getLsbD_append, BitVec.getLsbD_extractLsb']; grind

/-- The word its own fields make (format S). -/
theorem encodeS_fields (w : Word) (h : opcodeOf w = Opcode.store) :
    encodeS (fieldS w) (rs2Of w) (rs1Of w) (funct3Of w) = w := by
  have e := encodeR_fields w
  rw [h] at e
  have h5 : (fieldS w).extractLsb' 5 7 = funct7Of w := by
    unfold fieldS; ext i hi; simp [BitVec.getElem_extractLsb']; grind
  have h0 : (fieldS w).extractLsb' 0 5 = rdOf w := by
    unfold fieldS; ext i hi; simp [BitVec.getElem_extractLsb']; grind
  unfold encodeS
  rw [h5, h0]
  exact e

/-- LUI's immediate is its field above 12 zero bits. -/
theorem immU_eq_upperImm (w : Word) : immU w = upperImm (fieldU w) := by
  unfold immU upperImm fieldU; apply BitVec.eq_of_getLsbD_eq; intro i hi
  have h : (0xFFFFF000#32).getLsbD i = decide (12 ≤ i ∧ i < 32) := by
    have : ∀ i : Fin 32, (0xFFFFF000#32).getLsbD i.val = decide (12 ≤ i.val ∧ i.val < 32) := by decide
    exact this ⟨i, hi⟩
  simp only [BitVec.getLsbD_and, BitVec.getLsbD_append, BitVec.getLsbD_extractLsb', h]; grind

/-- Bit 10 of the I-type immediate is instruction bit 30 (30_encoding.md R104, 40_pipeline_stages.md R150). -/
theorem immI_bit10 (w : Word) : (immI w).getLsbD 10 = bit30 (funct7Of w) := by
  unfold immI sext12 fieldI bit30 funct7Of
  simp only [BitVec.getLsbD_signExtend, BitVec.getLsbD_extractLsb']
  simp

/-- The low 12 bits of a sign-extended 12-bit value are that value. -/
@[simp] theorem sext12_low (v : BitVec 12) : (sext12 v).extractLsb' 0 12 = v := by
  unfold sext12; ext i hi
  simp [BitVec.getElem_extractLsb', BitVec.getLsbD_signExtend]; grind

/-! ## The masks of the opcode table -/

/-- Mask `0x0000007F` keeps the opcode. -/
theorem and_opcodeMask (w : Word) : w &&& 0x0000007F#32 = 0#25 ++ opcodeOf w := by
  unfold opcodeOf; apply BitVec.eq_of_getLsbD_eq; intro i hi
  have h : ∀ i : Fin 32, (0x0000007F#32).getLsbD i.val = decide (i.val < 7) := by decide
  have := h ⟨i, hi⟩
  simp only [BitVec.getLsbD_and, BitVec.getLsbD_append, BitVec.getLsbD_extractLsb'] at *; grind

/-- Mask `0x0000707F` keeps the opcode and `funct3`. -/
theorem and_funct3Mask (w : Word) : w &&& 0x0000707F#32 = 0#17 ++ funct3Of w ++ 0#5 ++ opcodeOf w := by
  unfold opcodeOf funct3Of; apply BitVec.eq_of_getLsbD_eq; intro i hi
  have h : ∀ i : Fin 32, (0x0000707F#32).getLsbD i.val = decide (i.val < 7 ∨ (12 ≤ i.val ∧ i.val < 15)) := by decide
  have := h ⟨i, hi⟩
  simp only [BitVec.getLsbD_and, BitVec.getLsbD_append, BitVec.getLsbD_extractLsb'] at *; grind

/-- Mask `0x4000707F` keeps the opcode, `funct3` and bit 30. -/
theorem and_bit30Mask (w : Word) :
    w &&& 0x4000707F#32 =
      0#1 ++ BitVec.ofBool (bit30 (funct7Of w)) ++ 0#15 ++ funct3Of w ++ 0#5 ++ opcodeOf w := by
  unfold opcodeOf funct3Of bit30 funct7Of; apply BitVec.eq_of_getLsbD_eq; intro i hi
  have h : ∀ i : Fin 32, (0x4000707F#32).getLsbD i.val =
      decide (i.val < 7 ∨ (12 ≤ i.val ∧ i.val < 15) ∨ i.val = 30) := by decide
  have := h ⟨i, hi⟩
  simp only [BitVec.getLsbD_and, BitVec.getLsbD_append, BitVec.getLsbD_extractLsb', BitVec.getLsbD_ofBool] at *; grind

/-! ## The decoder -/

/-- The eight values of `funct3`. -/
theorem funct3_cases : ∀ x : BitVec 3, x = 0#3 ∨ x = 1#3 ∨ x = 2#3 ∨ x = 3#3 ∨
    x = 4#3 ∨ x = 5#3 ∨ x = 6#3 ∨ x = 7#3 := by decide

/-- Everything `decode` can answer, by the opcode (30_encoding.md R108, R110 to R114). -/
theorem decode_cases (w : Word) :
    (opcodeOf w = Opcode.aluReg ∧ decode w = decodeAluReg w) ∨
    (opcodeOf w = Opcode.aluImm ∧ decode w = decodeAluImm w) ∨
    (opcodeOf w = Opcode.load ∧ decode w = decodeLoad w) ∨
    (opcodeOf w = Opcode.store ∧ decode w = decodeStore w) ∨
    (opcodeOf w = Opcode.lui ∧ decode w = .lui (rdOf w) (fieldU w)) ∨
    (opcodeOf w = Opcode.branch ∧ decode w = .branch (fieldRest w)) ∨
    (opcodeOf w = Opcode.jal ∧ decode w = .jal (fieldRest w)) ∨
    (opcodeOf w = Opcode.jalr ∧ decode w = .jalr (fieldRest w)) ∨
    (opcodeOf w = Opcode.auipc ∧ decode w = .auipc (fieldRest w)) ∨
    (opcodeOf w = Opcode.miscMem ∧ decode w = .miscMem (fieldRest w)) ∨
    (opcodeOf w = Opcode.system ∧ decode w = .system (fieldRest w)) ∨
    (Opcode.named.contains (opcodeOf w) = false ∧ decode w = .unrecognized w) := by
  by_cases h : Opcode.named.contains (opcodeOf w) = true
  · simp only [Opcode.named, List.contains_cons, List.contains_nil, Bool.or_false, Bool.or_eq_true, beq_iff_eq] at h
    unfold decode
    rcases h with h|h|h|h|h|h|h|h|h|h|h <;>
      simp [h, Opcode.aluReg, Opcode.aluImm, Opcode.load, Opcode.store, Opcode.lui, Opcode.branch, Opcode.jal,
        Opcode.jalr, Opcode.auipc, Opcode.miscMem, Opcode.system]
  · have h := eq_false_of_ne_true h
    have h' := h
    simp only [Opcode.named, List.contains_cons, List.contains_nil, Bool.or_false, Bool.or_eq_false_iff,
      beq_eq_false_iff_ne, ne_eq] at h'
    unfold decode
    simp only [h', if_false]
    simpa using h

end Sys2Proof
end

