-- ==== Sys2Proof/Laws/State.lean ====
section
/-! SUPPORT. The small lemmas of State and of every update of it: one per field, true by definition. -/

set_option Elab.async false

namespace Sys2Proof.Machine

/-! ## Clocked cells -/

@[simp] theorem ClockedCell.value_init {α : Type} (v : α) : (ClockedCell.init v).value = v := rfl
@[simp] theorem ClockedCell.staged_init {α : Type} (v : α) : (ClockedCell.init v).staged = v := rfl
@[simp] theorem ClockedCell.value_set {α : Type} (c : ClockedCell α) (v : α) : (c.set v).value = c.value := rfl
@[simp] theorem ClockedCell.staged_set {α : Type} (c : ClockedCell α) (v : α) : (c.set v).staged = v := rfl
@[simp] theorem ClockedCell.value_commit {α : Type} (c : ClockedCell α) : c.commit.value = c.staged := rfl
@[simp] theorem ClockedCell.staged_commit {α : Type} (c : ClockedCell α) : c.commit.staged = c.staged := rfl
@[simp] theorem ClockedCell.commit_set {α : Type} (c : ClockedCell α) (v : α) : (c.set v).commit = .init v := rfl
@[simp] theorem ClockedCell.commit_init {α : Type} (v : α) : (ClockedCell.init v).commit = .init v := rfl
@[simp] theorem ClockedCell.commit_commit {α : Type} (c : ClockedCell α) : c.commit.commit = c.commit := rfl

/-- A committed cell is the cell constructed with its committed value. -/
theorem ClockedCell.commit_eq_init {α : Type} (c : ClockedCell α) : c.commit = .init c.commit.value := rfl

@[simp] theorem FetchCells.commit_commit (c : FetchCells) : c.commit.commit = c.commit := rfl
@[simp] theorem DecodeCells.commit_commit (c : DecodeCells) : c.commit.commit = c.commit := rfl
@[simp] theorem ExecuteCells.commit_commit (c : ExecuteCells) : c.commit.commit = c.commit := rfl
@[simp] theorem MemoryCells.commit_commit (c : MemoryCells) : c.commit.commit = c.commit := rfl

/-! ## The cells of a committed stage -/

@[simp] theorem FetchCells.commit_pc (c : FetchCells) : c.commit.pc = c.pc.commit := rfl
@[simp] theorem FetchCells.commit_inst (c : FetchCells) : c.commit.inst = c.inst.commit := rfl
@[simp] theorem DecodeCells.commit_inst (c : DecodeCells) : c.commit.inst = c.inst.commit := rfl
@[simp] theorem DecodeCells.commit_opcode (c : DecodeCells) : c.commit.opcode = c.opcode.commit := rfl
@[simp] theorem DecodeCells.commit_rd (c : DecodeCells) : c.commit.rd = c.rd.commit := rfl
@[simp] theorem DecodeCells.commit_funct3 (c : DecodeCells) : c.commit.funct3 = c.funct3.commit := rfl
@[simp] theorem DecodeCells.commit_rs1 (c : DecodeCells) : c.commit.rs1 = c.rs1.commit := rfl
@[simp] theorem DecodeCells.commit_rs2 (c : DecodeCells) : c.commit.rs2 = c.rs2.commit := rfl
@[simp] theorem DecodeCells.commit_shamt (c : DecodeCells) : c.commit.shamt = c.shamt.commit := rfl
@[simp] theorem DecodeCells.commit_funct7 (c : DecodeCells) : c.commit.funct7 = c.funct7.commit := rfl
@[simp] theorem DecodeCells.commit_imm32 (c : DecodeCells) : c.commit.imm32 = c.imm32.commit := rfl
@[simp] theorem DecodeCells.commit_isAluOp (c : DecodeCells) : c.commit.isAluOp = c.isAluOp.commit := rfl
@[simp] theorem DecodeCells.commit_isStore (c : DecodeCells) : c.commit.isStore = c.isStore.commit := rfl
@[simp] theorem DecodeCells.commit_isLoad (c : DecodeCells) : c.commit.isLoad = c.isLoad.commit := rfl
@[simp] theorem DecodeCells.commit_isLUI (c : DecodeCells) : c.commit.isLUI = c.isLUI.commit := rfl
@[simp] theorem ExecuteCells.commit_aluResult (c : ExecuteCells) : c.commit.aluResult = c.aluResult.commit := rfl
@[simp] theorem ExecuteCells.commit_rd (c : ExecuteCells) : c.commit.rd = c.rd.commit := rfl
@[simp] theorem ExecuteCells.commit_isAluOp (c : ExecuteCells) : c.commit.isAluOp = c.isAluOp.commit := rfl
@[simp] theorem ExecuteCells.commit_isLoad (c : ExecuteCells) : c.commit.isLoad = c.isLoad.commit := rfl
@[simp] theorem ExecuteCells.commit_isLUI (c : ExecuteCells) : c.commit.isLUI = c.isLUI.commit := rfl
@[simp] theorem ExecuteCells.commit_isStore (c : ExecuteCells) : c.commit.isStore = c.isStore.commit := rfl
@[simp] theorem ExecuteCells.commit_rs1 (c : ExecuteCells) : c.commit.rs1 = c.rs1.commit := rfl
@[simp] theorem ExecuteCells.commit_rs2 (c : ExecuteCells) : c.commit.rs2 = c.rs2.commit := rfl
@[simp] theorem ExecuteCells.commit_funct3 (c : ExecuteCells) : c.commit.funct3 = c.funct3.commit := rfl
@[simp] theorem ExecuteCells.commit_imm32 (c : ExecuteCells) : c.commit.imm32 = c.imm32.commit := rfl
@[simp] theorem MemoryCells.commit_writebackValue (c : MemoryCells) : c.commit.writebackValue = c.writebackValue.commit := rfl
@[simp] theorem MemoryCells.commit_rd (c : MemoryCells) : c.commit.rd = c.rd.commit := rfl
@[simp] theorem MemoryCells.commit_isAluOp (c : MemoryCells) : c.commit.isAluOp = c.isAluOp.commit := rfl
@[simp] theorem MemoryCells.commit_isLoad (c : MemoryCells) : c.commit.isLoad = c.isLoad.commit := rfl
@[simp] theorem MemoryCells.commit_isLUI (c : MemoryCells) : c.commit.isLUI = c.isLUI.commit := rfl
@[simp] theorem MemoryCells.commit_isStore (c : MemoryCells) : c.commit.isStore = c.isStore.commit := rfl

/-! ## Updates of State, field by field -/

@[simp] theorem commitPhase_sel (s : State) : (commitPhase s).sel = s.sel := rfl
@[simp] theorem commitPhase_F (s : State) : (commitPhase s).F = s.F.commit := rfl
@[simp] theorem commitPhase_D (s : State) : (commitPhase s).D = s.D.commit := rfl
@[simp] theorem commitPhase_E (s : State) : (commitPhase s).E = s.E.commit := rfl
@[simp] theorem commitPhase_M (s : State) : (commitPhase s).M = s.M.commit := rfl
@[simp] theorem commitPhase_RF (s : State) : (commitPhase s).RF = s.RF.map ClockedCell.commit := rfl
@[simp] theorem commitPhase_ROM (s : State) : (commitPhase s).ROM = s.ROM := rfl
@[simp] theorem commitPhase_RAM (s : State) : (commitPhase s).RAM = s.RAM := rfl
@[simp] theorem commitPhase_romLoaded (s : State) : (commitPhase s).romLoaded = s.romLoaded := rfl

@[simp] theorem fetched_sel (w : Word) (s : State) : (fetched w s).sel = s.sel := rfl
@[simp] theorem fetched_F (w : Word) (s : State) : (fetched w s).F = { pc := .init (s.F.pc.value + 4#32), inst := .init w } := rfl
@[simp] theorem fetched_D (w : Word) (s : State) : (fetched w s).D = s.D.commit := rfl
@[simp] theorem fetched_E (w : Word) (s : State) : (fetched w s).E = s.E.commit := rfl
@[simp] theorem fetched_M (w : Word) (s : State) : (fetched w s).M = s.M.commit := rfl
@[simp] theorem fetched_RF (w : Word) (s : State) : (fetched w s).RF = s.RF.map ClockedCell.commit := rfl
@[simp] theorem fetched_ROM (w : Word) (s : State) : (fetched w s).ROM = s.ROM := rfl
@[simp] theorem fetched_RAM (w : Word) (s : State) : (fetched w s).RAM = s.RAM := rfl
@[simp] theorem fetched_romLoaded (w : Word) (s : State) : (fetched w s).romLoaded = s.romLoaded := rfl

@[simp] theorem latchDecode_sel (c : InstrClass) (imm : Word) (s : State) : (latchDecode c imm s).sel = s.sel := rfl
@[simp] theorem latchDecode_F (c : InstrClass) (imm : Word) (s : State) : (latchDecode c imm s).F = s.F := rfl
@[simp] theorem latchDecode_E (c : InstrClass) (imm : Word) (s : State) : (latchDecode c imm s).E = s.E := rfl
@[simp] theorem latchDecode_M (c : InstrClass) (imm : Word) (s : State) : (latchDecode c imm s).M = s.M := rfl
@[simp] theorem latchDecode_RF (c : InstrClass) (imm : Word) (s : State) : (latchDecode c imm s).RF = s.RF := rfl
@[simp] theorem latchDecode_ROM (c : InstrClass) (imm : Word) (s : State) : (latchDecode c imm s).ROM = s.ROM := rfl
@[simp] theorem latchDecode_RAM (c : InstrClass) (imm : Word) (s : State) : (latchDecode c imm s).RAM = s.RAM := rfl
@[simp] theorem latchDecode_romLoaded (c : InstrClass) (imm : Word) (s : State) : (latchDecode c imm s).romLoaded = s.romLoaded := rfl

@[simp] theorem latchExecute_sel (v : Word) (s : State) : (latchExecute v s).sel = s.sel := rfl
@[simp] theorem latchExecute_F (v : Word) (s : State) : (latchExecute v s).F = s.F := rfl
@[simp] theorem latchExecute_D (v : Word) (s : State) : (latchExecute v s).D = s.D := rfl
@[simp] theorem latchExecute_M (v : Word) (s : State) : (latchExecute v s).M = s.M := rfl
@[simp] theorem latchExecute_RF (v : Word) (s : State) : (latchExecute v s).RF = s.RF := rfl
@[simp] theorem latchExecute_ROM (v : Word) (s : State) : (latchExecute v s).ROM = s.ROM := rfl
@[simp] theorem latchExecute_RAM (v : Word) (s : State) : (latchExecute v s).RAM = s.RAM := rfl
@[simp] theorem latchExecute_romLoaded (v : Word) (s : State) : (latchExecute v s).romLoaded = s.romLoaded := rfl

@[simp] theorem latchMemory_sel (v : Word) (s : State) : (latchMemory v s).sel = s.sel := rfl
@[simp] theorem latchMemory_F (v : Word) (s : State) : (latchMemory v s).F = s.F := rfl
@[simp] theorem latchMemory_D (v : Word) (s : State) : (latchMemory v s).D = s.D := rfl
@[simp] theorem latchMemory_E (v : Word) (s : State) : (latchMemory v s).E = s.E := rfl
@[simp] theorem latchMemory_RF (v : Word) (s : State) : (latchMemory v s).RF = s.RF := rfl
@[simp] theorem latchMemory_ROM (v : Word) (s : State) : (latchMemory v s).ROM = s.ROM := rfl
@[simp] theorem latchMemory_RAM (v : Word) (s : State) : (latchMemory v s).RAM = s.RAM := rfl
@[simp] theorem latchMemory_romLoaded (v : Word) (s : State) : (latchMemory v s).romLoaded = s.romLoaded := rfl

@[simp] theorem issue_sel (c : InstrClass) (imm : Word) (s : State) : (issue c imm s).sel = s.sel := rfl
@[simp] theorem issue_F (c : InstrClass) (imm : Word) (s : State) : (issue c imm s).F = s.F := rfl
@[simp] theorem issue_D (c : InstrClass) (imm : Word) (s : State) : (issue c imm s).D = (latchDecode c imm s).D := rfl
@[simp] theorem issue_M (c : InstrClass) (imm : Word) (s : State) : (issue c imm s).M = s.M := rfl
@[simp] theorem issue_RF (c : InstrClass) (imm : Word) (s : State) : (issue c imm s).RF = s.RF := rfl
@[simp] theorem issue_ROM (c : InstrClass) (imm : Word) (s : State) : (issue c imm s).ROM = s.ROM := rfl
@[simp] theorem issue_RAM (c : InstrClass) (imm : Word) (s : State) : (issue c imm s).RAM = s.RAM := rfl
@[simp] theorem issue_romLoaded (c : InstrClass) (imm : Word) (s : State) : (issue c imm s).romLoaded = s.romLoaded := rfl

@[simp] theorem writeRegister_sel (rd : Reg) (v : Word) (s : State) : (writeRegister rd v s).sel = s.sel := rfl
@[simp] theorem writeRegister_F (rd : Reg) (v : Word) (s : State) : (writeRegister rd v s).F = s.F := rfl
@[simp] theorem writeRegister_D (rd : Reg) (v : Word) (s : State) : (writeRegister rd v s).D = s.D := rfl
@[simp] theorem writeRegister_E (rd : Reg) (v : Word) (s : State) : (writeRegister rd v s).E = s.E := rfl
@[simp] theorem writeRegister_M (rd : Reg) (v : Word) (s : State) : (writeRegister rd v s).M = s.M := rfl
@[simp] theorem writeRegister_RF (rd : Reg) (v : Word) (s : State) : (writeRegister rd v s).RF = s.RF.set rd.toNat (.init v) rd.isLt := rfl
@[simp] theorem writeRegister_ROM (rd : Reg) (v : Word) (s : State) : (writeRegister rd v s).ROM = s.ROM := rfl
@[simp] theorem writeRegister_RAM (rd : Reg) (v : Word) (s : State) : (writeRegister rd v s).RAM = s.RAM := rfl
@[simp] theorem writeRegister_romLoaded (rd : Reg) (v : Word) (s : State) : (writeRegister rd v s).romLoaded = s.romLoaded := rfl

@[simp] theorem atBoundary_sel (s : State) : (atBoundary s).sel = .IF := rfl
@[simp] theorem atBoundary_F (s : State) : (atBoundary s).F = s.F := rfl
@[simp] theorem atBoundary_D (s : State) : (atBoundary s).D = s.D := rfl
@[simp] theorem atBoundary_E (s : State) : (atBoundary s).E = s.E := rfl
@[simp] theorem atBoundary_M (s : State) : (atBoundary s).M = s.M := rfl
@[simp] theorem atBoundary_RF (s : State) : (atBoundary s).RF = s.RF := rfl
@[simp] theorem atBoundary_ROM (s : State) : (atBoundary s).ROM = s.ROM := rfl
@[simp] theorem atBoundary_RAM (s : State) : (atBoundary s).RAM = s.RAM := rfl
@[simp] theorem atBoundary_romLoaded (s : State) : (atBoundary s).romLoaded = s.romLoaded := rfl

@[simp] theorem rfStage_sel (i : Reg) (v : Word) (s : State) : (rfStage s i v).sel = s.sel := rfl
@[simp] theorem rfStage_F (i : Reg) (v : Word) (s : State) : (rfStage s i v).F = s.F := rfl
@[simp] theorem rfStage_D (i : Reg) (v : Word) (s : State) : (rfStage s i v).D = s.D := rfl
@[simp] theorem rfStage_E (i : Reg) (v : Word) (s : State) : (rfStage s i v).E = s.E := rfl
@[simp] theorem rfStage_M (i : Reg) (v : Word) (s : State) : (rfStage s i v).M = s.M := rfl
@[simp] theorem rfStage_RF (i : Reg) (v : Word) (s : State) : (rfStage s i v).RF = s.RF.set i.toNat ((s.RF[i.toNat]'i.isLt).set v) i.isLt := rfl
@[simp] theorem rfStage_ROM (i : Reg) (v : Word) (s : State) : (rfStage s i v).ROM = s.ROM := rfl
@[simp] theorem rfStage_RAM (i : Reg) (v : Word) (s : State) : (rfStage s i v).RAM = s.RAM := rfl
@[simp] theorem rfStage_romLoaded (i : Reg) (v : Word) (s : State) : (rfStage s i v).romLoaded = s.romLoaded := rfl

@[simp] theorem setRamWord_sel (i : Nat) (w : Word) (s : State) : (setRamWord s i w).sel = s.sel := rfl
@[simp] theorem setRamWord_F (i : Nat) (w : Word) (s : State) : (setRamWord s i w).F = s.F := rfl
@[simp] theorem setRamWord_D (i : Nat) (w : Word) (s : State) : (setRamWord s i w).D = s.D := rfl
@[simp] theorem setRamWord_E (i : Nat) (w : Word) (s : State) : (setRamWord s i w).E = s.E := rfl
@[simp] theorem setRamWord_M (i : Nat) (w : Word) (s : State) : (setRamWord s i w).M = s.M := rfl
@[simp] theorem setRamWord_RF (i : Nat) (w : Word) (s : State) : (setRamWord s i w).RF = s.RF := rfl
@[simp] theorem setRamWord_ROM (i : Nat) (w : Word) (s : State) : (setRamWord s i w).ROM = s.ROM := rfl
@[simp] theorem setRamWord_RAM (i : Nat) (w : Word) (s : State) : (setRamWord s i w).RAM = Memory.setWord (Config.fillByte .ram) s.RAM i w := rfl
@[simp] theorem setRamWord_romLoaded (i : Nat) (w : Word) (s : State) : (setRamWord s i w).romLoaded = s.romLoaded := rfl

@[simp] theorem devWriteRam_sel (loc : BitVec 28) (v : Word) (wd : Width) (s : State) : (devWriteRam s loc v wd).sel = s.sel := rfl
@[simp] theorem devWriteRam_F (loc : BitVec 28) (v : Word) (wd : Width) (s : State) : (devWriteRam s loc v wd).F = s.F := rfl
@[simp] theorem devWriteRam_D (loc : BitVec 28) (v : Word) (wd : Width) (s : State) : (devWriteRam s loc v wd).D = s.D := rfl
@[simp] theorem devWriteRam_E (loc : BitVec 28) (v : Word) (wd : Width) (s : State) : (devWriteRam s loc v wd).E = s.E := rfl
@[simp] theorem devWriteRam_M (loc : BitVec 28) (v : Word) (wd : Width) (s : State) : (devWriteRam s loc v wd).M = s.M := rfl
@[simp] theorem devWriteRam_RF (loc : BitVec 28) (v : Word) (wd : Width) (s : State) : (devWriteRam s loc v wd).RF = s.RF := rfl
@[simp] theorem devWriteRam_ROM (loc : BitVec 28) (v : Word) (wd : Width) (s : State) : (devWriteRam s loc v wd).ROM = s.ROM := rfl
@[simp] theorem devWriteRam_romLoaded (loc : BitVec 28) (v : Word) (wd : Width) (s : State) : (devWriteRam s loc v wd).romLoaded = s.romLoaded := rfl

@[simp] theorem retireAlu_sel (rd : Reg) (v : Word) (s : State) : (retireAlu rd v s).sel = .IF := rfl
@[simp] theorem retireAlu_F (rd : Reg) (v : Word) (s : State) : (retireAlu rd v s).F = s.F := rfl
@[simp] theorem retireAlu_RF (rd : Reg) (v : Word) (s : State) : (retireAlu rd v s).RF = s.RF.set rd.toNat (.init v) rd.isLt := rfl
@[simp] theorem retireAlu_ROM (rd : Reg) (v : Word) (s : State) : (retireAlu rd v s).ROM = s.ROM := rfl
@[simp] theorem retireAlu_RAM (rd : Reg) (v : Word) (s : State) : (retireAlu rd v s).RAM = s.RAM := rfl
@[simp] theorem retireAlu_romLoaded (rd : Reg) (v : Word) (s : State) : (retireAlu rd v s).romLoaded = s.romLoaded := rfl
@[simp] theorem retireAlu_writebackValue (rd : Reg) (v : Word) (s : State) : (retireAlu rd v s).M.writebackValue = .init v := rfl

@[simp] theorem retireLui_sel (rd : Reg) (v : Word) (s : State) : (retireLui rd v s).sel = .IF := rfl
@[simp] theorem retireLui_F (rd : Reg) (v : Word) (s : State) : (retireLui rd v s).F = s.F := rfl
@[simp] theorem retireLui_RF (rd : Reg) (v : Word) (s : State) : (retireLui rd v s).RF = s.RF.set rd.toNat (.init v) rd.isLt := rfl
@[simp] theorem retireLui_ROM (rd : Reg) (v : Word) (s : State) : (retireLui rd v s).ROM = s.ROM := rfl
@[simp] theorem retireLui_RAM (rd : Reg) (v : Word) (s : State) : (retireLui rd v s).RAM = s.RAM := rfl
@[simp] theorem retireLui_romLoaded (rd : Reg) (v : Word) (s : State) : (retireLui rd v s).romLoaded = s.romLoaded := rfl
@[simp] theorem retireLui_writebackValue (rd : Reg) (v : Word) (s : State) : (retireLui rd v s).M.writebackValue = .init v := rfl

@[simp] theorem retireLoad_sel (rd : Reg) (v : Word) (s : State) : (retireLoad rd v s).sel = .IF := rfl
@[simp] theorem retireLoad_F (rd : Reg) (v : Word) (s : State) : (retireLoad rd v s).F = s.F := rfl
@[simp] theorem retireLoad_RF (rd : Reg) (v : Word) (s : State) : (retireLoad rd v s).RF = s.RF.set rd.toNat (.init v) rd.isLt := rfl
@[simp] theorem retireLoad_ROM (rd : Reg) (v : Word) (s : State) : (retireLoad rd v s).ROM = s.ROM := rfl
@[simp] theorem retireLoad_RAM (rd : Reg) (v : Word) (s : State) : (retireLoad rd v s).RAM = s.RAM := rfl
@[simp] theorem retireLoad_romLoaded (rd : Reg) (v : Word) (s : State) : (retireLoad rd v s).romLoaded = s.romLoaded := rfl
@[simp] theorem retireLoad_writebackValue (rd : Reg) (v : Word) (s : State) : (retireLoad rd v s).M.writebackValue = .init v := rfl

@[simp] theorem retireStore_sel (s : State) : (retireStore s).sel = .IF := rfl
@[simp] theorem retireStore_F (s : State) : (retireStore s).F = s.F := rfl
@[simp] theorem retireStore_RF (s : State) : (retireStore s).RF = s.RF := rfl
@[simp] theorem retireStore_ROM (s : State) : (retireStore s).ROM = s.ROM := rfl
@[simp] theorem retireStore_RAM (s : State) : (retireStore s).RAM = s.RAM := rfl
@[simp] theorem retireStore_romLoaded (s : State) : (retireStore s).romLoaded = s.romLoaded := rfl
@[simp] theorem retireStore_writebackValue (s : State) : (retireStore s).M.writebackValue = .init s.M.writebackValue.value := rfl

@[simp] theorem retireNoClass_sel (s : State) : (retireNoClass s).sel = .IF := rfl
@[simp] theorem retireNoClass_F (s : State) : (retireNoClass s).F = s.F := rfl
@[simp] theorem retireNoClass_RF (s : State) : (retireNoClass s).RF = s.RF := rfl
@[simp] theorem retireNoClass_ROM (s : State) : (retireNoClass s).ROM = s.ROM := rfl
@[simp] theorem retireNoClass_RAM (s : State) : (retireNoClass s).RAM = s.RAM := rfl
@[simp] theorem retireNoClass_romLoaded (s : State) : (retireNoClass s).romLoaded = s.romLoaded := rfl
@[simp] theorem retireNoClass_writebackValue (s : State) : (retireNoClass s).M.writebackValue = .init s.M.writebackValue.value := rfl

/-! ## The bus write, which changes RAM alone -/

@[simp] theorem busWrite_sel (s : State) (a v : Word) (wd : Width) : (busWrite s a v wd).sel = s.sel := by
  unfold busWrite; split <;> rfl
@[simp] theorem busWrite_F (s : State) (a v : Word) (wd : Width) : (busWrite s a v wd).F = s.F := by
  unfold busWrite; split <;> rfl
@[simp] theorem busWrite_D (s : State) (a v : Word) (wd : Width) : (busWrite s a v wd).D = s.D := by
  unfold busWrite; split <;> rfl
@[simp] theorem busWrite_E (s : State) (a v : Word) (wd : Width) : (busWrite s a v wd).E = s.E := by
  unfold busWrite; split <;> rfl
@[simp] theorem busWrite_M (s : State) (a v : Word) (wd : Width) : (busWrite s a v wd).M = s.M := by
  unfold busWrite; split <;> rfl
@[simp] theorem busWrite_RF (s : State) (a v : Word) (wd : Width) : (busWrite s a v wd).RF = s.RF := by
  unfold busWrite; split <;> rfl
@[simp] theorem busWrite_ROM (s : State) (a v : Word) (wd : Width) : (busWrite s a v wd).ROM = s.ROM := by
  unfold busWrite; split <;> rfl
@[simp] theorem busWrite_romLoaded (s : State) (a v : Word) (wd : Width) : (busWrite s a v wd).romLoaded = s.romLoaded := by
  unfold busWrite; split <;> rfl

/-! ## Registers -/

/-- What a register holds after a committed write. -/
theorem rfValue_writeRegister (rd r : Reg) (v : Word) (s : State) :
    rfValue (writeRegister rd v s) r = if r = rd then v else rfValue s r := by
  unfold rfValue
  simp only [writeRegister_RF, Vector.getElem_set]
  by_cases h : r = rd
  · simp [h]
  · have : rd.toNat ≠ r.toNat := fun e => h (BitVec.eq_of_toNat_eq e.symm)
    simp [h, this]

/-- Reading a register reads `RF` alone. -/
theorem rfValue_congr {s t : State} (h : t.RF = s.RF) (r : Reg) : rfValue t r = rfValue s r := by
  simp only [rfValue, h]

theorem operand_congr {s t : State} (h : t.RF = s.RF) (r : Reg) : operand t r = operand s r := by
  simp only [operand, rfValue_congr h]

@[simp] theorem operand_zero (s : State) : operand s 0#5 = 0#32 := rfl

theorem operand_of_ne_zero (s : State) {r : Reg} (h : r ≠ 0#5) : operand s r = rfValue s r := by
  simp [operand, h]

/-! ## Settled states -/

section Settled

variable {s : State}

theorem Settled.F (h : Settled s) : s.F.commit = s.F := congrArg State.F h
theorem Settled.D (h : Settled s) : s.D.commit = s.D := congrArg State.D h
theorem Settled.E (h : Settled s) : s.E.commit = s.E := congrArg State.E h
theorem Settled.M (h : Settled s) : s.M.commit = s.M := congrArg State.M h
theorem Settled.RF (h : Settled s) : s.RF.map ClockedCell.commit = s.RF := congrArg State.RF h

/-- In a settled state the fetch changes the Fetch cells alone. -/
theorem fetched_of_settled (h : Settled s) (w : Word) :
    fetched w s = { s with F := { pc := .init (s.F.pc.value + 4#32), inst := .init w } } := by
  unfold fetched
  rw [h]

end Settled

/-- A commit after a commit changes nothing: whatever state it starts from, a commit settles it (R131, R137). -/
theorem commitPhase_idem (s : State) : commitPhase (commitPhase s) = commitPhase s := by
  have h : (s.RF.map ClockedCell.commit).map ClockedCell.commit = s.RF.map ClockedCell.commit := by
    rw [Vector.map_map]; rfl
  unfold commitPhase
  simp only [h, FetchCells.commit_commit, DecodeCells.commit_commit, ExecuteCells.commit_commit,
    MemoryCells.commit_commit]

/-- Registers are read from `RF` through the fetch unchanged in a settled state. -/
theorem operand_fetched (h : Settled s) (w : Word) (r : Reg) : operand (fetched w s) r = operand s r :=
  operand_congr (by rw [fetched_of_settled h]) r

theorem rfValue_fetched (h : Settled s) (w : Word) (r : Reg) : rfValue (fetched w s) r = rfValue s r :=
  rfValue_congr (by rw [fetched_of_settled h]) r

end Sys2Proof.Machine
end

