-- ==== Sys2Proof/Laws/Memory.lean ====
section
/-! SUPPORT. The laws of the device arrays and of the bus: read after write, frame, canonical form. -/

set_option Elab.async false

namespace Sys2Proof.Machine

open Sys2Proof

/-! ## Bytes -/

/-- A write leaves every other address alone, whatever the list. -/
theorem Memory.read_write_other (fill : Byte) (m : Memory) {a a' : Nat} (b : Byte) (h : a' ≠ a) :
    Memory.read fill (Memory.write fill m a b) a' = Memory.read fill m a' := by
  induction m with
  | nil => by_cases hb : b = fill <;> simp [Memory.write, Memory.read, hb, h]
  | cons p rest ih =>
    obtain ⟨k, v⟩ := p
    by_cases h1 : a < k
    · by_cases hb : b = fill <;> simp [Memory.write, Memory.read, h1, hb, h]
    · by_cases h2 : a = k
      · subst h2
        by_cases hb : b = fill <;> simp [Memory.write, Memory.read, hb, h]
      · simp [Memory.write, Memory.read, h1, h2, ih]

/-- Below the first listed address everything reads as the fill byte. -/
theorem Memory.read_below (fill : Byte) (size : Nat) {m : Memory} {lo a : Nat}
    (h : Memory.wfFrom fill size lo m = true) (ha : a < lo) : Memory.read fill m a = fill := by
  induction m generalizing lo with
  | nil => rfl
  | cons p rest ih =>
    obtain ⟨k, v⟩ := p
    simp only [Memory.wfFrom, Bool.and_eq_true, decide_eq_true_eq] at h
    have : a ≠ k := by omega
    simp [Memory.read, this, ih h.2 (by omega)]

/-- A write is read back. -/
theorem Memory.read_write_same (fill : Byte) (size : Nat) {m : Memory} {lo : Nat} (a : Nat) (b : Byte)
    (h : Memory.wfFrom fill size lo m = true) : Memory.read fill (Memory.write fill m a b) a = b := by
  induction m generalizing lo with
  | nil => by_cases hb : b = fill <;> simp [Memory.write, Memory.read, hb]
  | cons p rest ih =>
    obtain ⟨k, v⟩ := p
    simp only [Memory.wfFrom, Bool.and_eq_true, decide_eq_true_eq] at h
    by_cases h1 : a < k
    · by_cases hb : b = fill
      · have : a ≠ k := by omega
        simp [Memory.write, Memory.read, h1, hb, this, Memory.read_below fill size h.2 (show a < k + 1 by omega)]
      · simp [Memory.write, Memory.read, h1, hb]
    · by_cases h2 : a = k
      · subst h2
        by_cases hb : b = fill
        · simp [Memory.write, hb, Memory.read_below fill size h.2 (show a < a + 1 by omega)]
        · simp [Memory.write, Memory.read, hb]
      · simp [Memory.write, Memory.read, h1, h2, ih h.2]

theorem Memory.wfFrom_mono (fill : Byte) (size : Nat) {m : Memory} {lo lo' : Nat}
    (h : Memory.wfFrom fill size lo m = true) (hle : lo' ≤ lo) : Memory.wfFrom fill size lo' m = true := by
  cases m with
  | nil => rfl
  | cons p rest =>
    obtain ⟨k, v⟩ := p
    simp only [Memory.wfFrom, Bool.and_eq_true, decide_eq_true_eq] at h ⊢
    exact ⟨⟨⟨by omega, h.1.1.2⟩, h.1.2⟩, h.2⟩

/-- A write inside the device keeps the canonical form. -/
theorem Memory.wfFrom_write (fill : Byte) (size : Nat) {m : Memory} {lo a : Nat} (b : Byte)
    (h : Memory.wfFrom fill size lo m = true) (hlo : lo ≤ a) (ha : a < size) :
    Memory.wfFrom fill size lo (Memory.write fill m a b) = true := by
  induction m generalizing lo with
  | nil => by_cases hb : b = fill <;> simp [Memory.write, Memory.wfFrom, hb, hlo, ha]
  | cons p rest ih =>
    obtain ⟨k, v⟩ := p
    have h' := h
    simp only [Memory.wfFrom, Bool.and_eq_true, decide_eq_true_eq] at h
    by_cases h1 : a < k
    · by_cases hb : b = fill
      · simpa [Memory.write, h1, hb] using h'
      · simp only [Memory.write, h1, hb, if_true, if_false, Memory.wfFrom, Bool.and_eq_true, decide_eq_true_eq]
        exact ⟨⟨⟨hlo, ha⟩, by simpa using hb⟩, ⟨⟨⟨h1, h.1.1.2⟩, h.1.2⟩, h.2⟩⟩
    · by_cases h2 : a = k
      · subst h2
        by_cases hb : b = fill
        · simpa [Memory.write, hb] using Memory.wfFrom_mono fill size h.2 (by omega)
        · simp [Memory.write, Memory.wfFrom, hb, hlo, ha, h.2]
      · simp only [Memory.write, h1, h2, if_false, Memory.wfFrom, Bool.and_eq_true, decide_eq_true_eq]
        exact ⟨h.1, ih h.2 (by omega)⟩

/-! ## Words -/

theorem byteOf_eq_extract (w : Word) (o : Nat) : byteOf w o = w.extractLsb' (8 * (3 - o)) 8 := by
  ext i hi
  simp [byteOf, BitVec.getElem_extractLsb', BitVec.getLsbD_ushiftRight]

/-- The four bytes of a word make it again. -/
@[simp] theorem wordOfBytes_byteOf (w : Word) :
    wordOfBytes (byteOf w 0) (byteOf w 1) (byteOf w 2) (byteOf w 3) = w := by
  simp only [wordOfBytes, byteOf]
  ext i hi
  simp only [BitVec.getElem_append, BitVec.getElem_setWidth, BitVec.getLsbD_ushiftRight]
  split
  · simp [← BitVec.getLsbD_eq_getElem]
  · split
    · rw [← BitVec.getLsbD_eq_getElem]; congr 1; omega
    · split
      · rw [← BitVec.getLsbD_eq_getElem]; congr 1; omega
      · rw [← BitVec.getLsbD_eq_getElem]; congr 1; omega

/-- The bytes of a word made from bytes. -/
theorem byteOf_wordOfBytes (b0 b1 b2 b3 : Byte) :
    byteOf (wordOfBytes b0 b1 b2 b3) 0 = b0 ∧ byteOf (wordOfBytes b0 b1 b2 b3) 1 = b1 ∧
    byteOf (wordOfBytes b0 b1 b2 b3) 2 = b2 ∧ byteOf (wordOfBytes b0 b1 b2 b3) 3 = b3 := by
  refine ⟨?_, ?_, ?_, ?_⟩ <;>
    · apply BitVec.eq_of_getLsbD_eq
      intro i hi
      simp only [wordOfBytes, byteOf, BitVec.getLsbD_setWidth, BitVec.getLsbD_ushiftRight, BitVec.getLsbD_append]
      grind

/-- A word write leaves the bytes of every other word alone, whatever the list. -/
theorem Memory.read_setWord_other (fill : Byte) (m : Memory) (i a : Nat) (w : Word) (h : a / 4 ≠ i) :
    Memory.read fill (Memory.setWord fill m i w) a = Memory.read fill m a := by
  unfold Memory.setWord
  rw [Memory.read_write_other fill _ _ (by omega), Memory.read_write_other fill _ _ (by omega),
    Memory.read_write_other fill _ _ (by omega), Memory.read_write_other fill _ _ (by omega)]

/-- Every other word is as before, whatever the list. -/
theorem Memory.word_setWord_other (fill : Byte) (m : Memory) (i j : Nat) (w : Word) (h : j ≠ i) :
    Memory.word fill (Memory.setWord fill m i w) j = Memory.word fill m j := by
  unfold Memory.word
  rw [Memory.read_setWord_other fill m i _ w (by omega), Memory.read_setWord_other fill m i _ w (by omega),
    Memory.read_setWord_other fill m i _ w (by omega), Memory.read_setWord_other fill m i _ w (by omega)]

/-- A word write inside the device keeps the canonical form. -/
theorem Memory.wf_setWord (d : Device) {m : Memory} {i : Nat} (w : Word) (h : Memory.wf d m = true)
    (hi : i < Config.deviceWords d) : Memory.wf d (Memory.setWord (Config.fillByte d) m i w) = true := by
  have hs : 4 * i + 3 < Config.deviceBytes d := by unfold Config.deviceBytes; omega
  unfold Memory.wf Memory.setWord at *
  exact Memory.wfFrom_write _ _ _
    (Memory.wfFrom_write _ _ _
      (Memory.wfFrom_write _ _ _ (Memory.wfFrom_write _ _ _ h (by omega) (by omega)) (by omega) (by omega))
      (by omega) (by omega))
    (by omega) (by omega)

/-- A word write is read back. -/
theorem Memory.word_setWord_same (d : Device) {m : Memory} {i : Nat} (w : Word) (h : Memory.wf d m = true)
    (hi : i < Config.deviceWords d) :
    Memory.word (Config.fillByte d) (Memory.setWord (Config.fillByte d) m i w) i = w := by
  have hs : 4 * i + 3 < Config.deviceBytes d := by unfold Config.deviceBytes; omega
  have h0 := Memory.wfFrom_write (Config.fillByte d) (Config.deviceBytes d) (a := 4 * i) (byteOf w 0) h (by omega) (by omega)
  have h1 := Memory.wfFrom_write (Config.fillByte d) (Config.deviceBytes d) (a := 4 * i + 1) (byteOf w 1) h0 (by omega) (by omega)
  have h2 := Memory.wfFrom_write (Config.fillByte d) (Config.deviceBytes d) (a := 4 * i + 2) (byteOf w 2) h1 (by omega) (by omega)
  unfold Memory.word Memory.setWord
  rw [Memory.read_write_same _ _ (4 * i + 3) _ h2,
    Memory.read_write_other _ _ (a := 4 * i + 3) (a' := 4 * i + 2) _ (by omega),
    Memory.read_write_same _ _ (4 * i + 2) _ h1,
    Memory.read_write_other _ _ (a := 4 * i + 3) (a' := 4 * i + 1) _ (by omega),
    Memory.read_write_other _ _ (a := 4 * i + 2) (a' := 4 * i + 1) _ (by omega),
    Memory.read_write_same _ _ (4 * i + 1) _ h0,
    Memory.read_write_other _ _ (a := 4 * i + 3) (a' := 4 * i) _ (by omega),
    Memory.read_write_other _ _ (a := 4 * i + 2) (a' := 4 * i) _ (by omega),
    Memory.read_write_other _ _ (a := 4 * i + 1) (a' := 4 * i) _ (by omega),
    Memory.read_write_same _ _ (4 * i) _ h, wordOfBytes_byteOf]

/-! ## Devices and the bus -/

theorem wordIndex_lt (d : Device) (loc : BitVec 28) : wordIndex d loc < Config.deviceWords d := by
  unfold wordIndex
  exact Nat.mod_lt _ (by cases d <;> decide)

/-- The devices are read through ROM, RAM and the launch flag alone. -/
theorem deviceWord_congr {s t : State} (hRom : t.ROM = s.ROM) (hRam : t.RAM = s.RAM)
    (hLoaded : t.romLoaded = s.romLoaded) (d : Device) (i : Nat) : deviceWord t d i = deviceWord s d i := by
  simp only [deviceWord, hRom, hRam, hLoaded]

theorem busRead_congr {s t : State} (hRom : t.ROM = s.ROM) (hRam : t.RAM = s.RAM)
    (hLoaded : t.romLoaded = s.romLoaded) (a : Word) (wd : Width) : busRead t a wd = busRead s a wd := by
  simp only [busRead, devRead, deviceWord_congr hRom hRam hLoaded]

/-- Every word of both devices after a RAM word write. -/
theorem deviceWord_setRamWord (s : State) (i : Nat) (w : Word) (h : MemoriesWf s)
    (hi : i < Config.deviceWords .ram) (d : Device) (j : Nat) :
    deviceWord (setRamWord s i w) d j = if d = .ram ∧ j = i then w else deviceWord s d j := by
  cases d with
  | rom => rw [if_neg (by simp)]; rfl
  | ram =>
    by_cases hj : j = i
    · subst hj
      simp [deviceWord, Memory.word_setWord_same .ram w h.2 hi]
    · simp [deviceWord, hj, Memory.word_setWord_other _ _ _ _ _ hj]

/-- A bus write to RAM is the read-modify-write of the containing word. -/
theorem busWrite_ram {s : State} {a : Word} (v : Word) (wd : Width) (h : route a = some .ram) :
    busWrite s a v wd =
      setRamWord s (wordIndex .ram (localOf a))
        (sliceWrite (byteOffset (localOf a)) wd (deviceWord s .ram (wordIndex .ram (localOf a))) v) := by
  unfold busWrite
  rw [h]
  rfl

/-- A bus write anywhere else changes nothing. -/
theorem busWrite_not_ram {s : State} {a : Word} (v : Word) (wd : Width) (h : route a ≠ some .ram) :
    busWrite s a v wd = s := by
  unfold busWrite
  split
  · contradiction
  · rfl
  · rfl

/-- A bus write changes RAM alone (R62). -/
theorem busWrite_eq (s : State) (a v : Word) (wd : Width) :
    busWrite s a v wd = { s with RAM := (busWrite s a v wd).RAM } := by
  unfold busWrite
  split <;> rfl

/-- What a bus write leaves in RAM depends on RAM alone (R62, R67 to R69). -/
theorem busWrite_RAM_congr {s t : State} (h : t.RAM = s.RAM) (a v : Word) (wd : Width) :
    (busWrite t a v wd).RAM = (busWrite s a v wd).RAM := by
  unfold busWrite
  split
  · simp only [devWriteRam, setRamWord, deviceWord, h]
  · exact h
  · exact h

/-- Bus writes keep both arrays canonical. -/
theorem memoriesWf_busWrite {s : State} (h : MemoriesWf s) (a v : Word) (wd : Width) :
    MemoriesWf (busWrite s a v wd) := by
  by_cases hr : route a = some .ram
  · rw [busWrite_ram v wd hr]
    exact ⟨h.1, Memory.wf_setWord .ram _ h.2 (wordIndex_lt .ram _)⟩
  · rw [busWrite_not_ram v wd hr]
    exact h

/-- A read anywhere after a bus write: the slice of the new containing word where the read names that RAM word, what it
was before everywhere else. -/
theorem busRead_busWrite {s : State} (h : MemoriesWf s) (a v : Word) (wd : Width) (b : Word) (wd' : Width) :
    busRead (busWrite s a v wd) b wd' =
      if (ramWordAt a).isSome ∧ ramWordAt b = ramWordAt a then
        sliceRead .ram (byteOffset (localOf b)) wd'
          (sliceWrite (byteOffset (localOf a)) wd (deviceWord s .ram (wordIndex .ram (localOf a))) v)
      else busRead s b wd' := by
  by_cases hr : route a = some .ram
  · rw [busWrite_ram v wd hr]
    by_cases hb : route b = some .ram
    · simp only [busRead, hb, devRead, ramWordAt, hr, if_true, Option.isSome_some, true_and, Option.some.injEq,
        deviceWord_setRamWord s _ _ h (wordIndex_lt .ram _)]
      split <;> rfl
    · have hne : ramWordAt b ≠ ramWordAt a := by simp [ramWordAt, hr, hb]
      rw [if_neg (by simp [hne])]
      unfold busRead
      split
      · next d hd =>
        have : d ≠ .ram := by rintro rfl; exact hb hd
        simp [devRead, deviceWord_setRamWord s _ _ h (wordIndex_lt .ram _), this]
      · rfl
  · rw [busWrite_not_ram v wd hr, if_neg (by simp [ramWordAt, hr])]

/-! ## How wide a read is -/

/-- A byte read answers 8 bits (R64). -/
theorem busRead_byte_lt (s : State) (a : Word) : (busRead s a .byte).toNat < 2 ^ 8 := by
  unfold busRead
  cases route a with
  | none => exact Nat.zero_lt_succ _
  | some d =>
    simp only [devRead, sliceRead, BitVec.toNat_and]
    exact Nat.lt_of_le_of_lt Nat.and_le_right (by decide)

/-- A half-word read answers 16 bits (R65). -/
theorem busRead_half_lt (s : State) (a : Word) : (busRead s a .half).toNat < 2 ^ 16 := by
  unfold busRead
  cases route a with
  | none => exact Nat.zero_lt_succ _
  | some d =>
    simp only [devRead, sliceRead]
    generalize deviceWord s d _ = w
    split
    · have := w.isLt
      rw [BitVec.toNat_ushiftRight, Nat.shiftRight_eq_div_pow]
      omega
    split
    · rw [BitVec.toNat_and]
      exact Nat.lt_of_le_of_lt Nat.and_le_right (by decide)
    · rw [BitVec.toNat_setWidth]
      exact Nat.lt_of_le_of_lt (Nat.mod_le _ _) (BitVec.isLt _)

/-- A byte read is its own zero extension (R157, R254). -/
theorem zext8_busRead (s : State) (a : Word) : zext8 (busRead s a .byte) = busRead s a .byte := by
  have h := busRead_byte_lt s a
  apply BitVec.eq_of_toNat_eq
  simp only [zext8, BitVec.toNat_setWidth]
  omega

/-- A half-word read is its own zero extension (R157, R255). -/
theorem zext16_busRead (s : State) (a : Word) : zext16 (busRead s a .half) = busRead s a .half := by
  have h := busRead_half_lt s a
  apply BitVec.eq_of_toNat_eq
  simp only [zext16, BitVec.toNat_setWidth]
  omega

end Sys2Proof.Machine
end

