-- ==== Sys2Proof/Laws/Pipeline.lean ====
section
/-! SUPPORT. What one tick does, once per stage, in a settled state; and what a tick does in any state. Later proofs cite
these and never unfold `cycle`. -/

set_option Elab.async false

namespace Sys2Proof.Machine

open Sys2Proof

/-- The class an opcode selects. -/
def classOf (op : BitVec 7) : InstrClass :=
  if isStore op then .store
  else if isAluOp op then .alu
  else if isLoad op then .load
  else if isLUI op then .lui
  else .noClass

/-- The class flags are the class. -/
theorem classOf_flags (op : BitVec 7) :
    (classOf op == .alu) = isAluOp op ∧ (classOf op == .store) = isStore op ∧
    (classOf op == .load) = isLoad op ∧ (classOf op == .lui) = isLUI op := by
  revert op; decide

/-- The immediate decode_stage leaves in `imm32`. -/
def selectImm (w held : Word) : Word :=
  match classOf (opcodeOf w) with
  | .store => immS w
  | .alu => immI w
  | .load => immI w
  | .lui => immU w
  | .noClass => held

/-- `set` then `commit` on a cell of a settled vector is the committed write. -/
theorem map_commit_set {v : Vector (ClockedCell Word) 32} (h : v.map ClockedCell.commit = v) (i : Nat) (hi : i < 32)
    (x : Word) : (v.set i ((v[i]'hi).set x) hi).map ClockedCell.commit = v.set i (.init x) hi := by
  ext j hj
  simp only [Vector.getElem_map, Vector.getElem_set]
  split
  · rfl
  · have := congrArg (fun u => u[j]) h
    simpa using this

/-- The commit of a state whose register file and cells are settled. -/
theorem commitPhase_rfStage {s : State} (h : Settled s) (i : Reg) (v : Word) :
    commitPhase (rfStage s i v) = writeRegister i v s := by
  unfold commitPhase rfStage writeRegister
  simp only [map_commit_set h.RF, h.F, h.D, h.E, h.M]

/-- Committed writes keep a state settled. -/
theorem settled_writeRegister {s : State} (h : Settled s) (i : Reg) (v : Word) : Settled (writeRegister i v s) := by
  rw [← commitPhase_rfStage h]
  exact commitPhase_idem _

theorem settled_fetched (w : Word) (s : State) : Settled (fetched w s) := by
  have h := Settled.RF (commitPhase_idem s)
  show commitPhase (fetched w s) = fetched w s
  unfold commitPhase
  simp only [fetched_F, fetched_D, fetched_E, fetched_M, fetched_RF, DecodeCells.commit_commit,
    ExecuteCells.commit_commit, MemoryCells.commit_commit]
  rw [commitPhase_RF] at h
  rw [h]
  rfl

theorem settled_latchDecode {s : State} (h : Settled s) (c : InstrClass) (imm : Word) :
    Settled (latchDecode c imm s) := by
  unfold Settled commitPhase latchDecode
  simp only [h.F, h.E, h.M, h.RF]
  rfl

theorem settled_latchExecute {s : State} (h : Settled s) (v : Word) : Settled (latchExecute v s) := by
  unfold Settled commitPhase latchExecute
  simp only [h.F, h.D, h.M, h.RF]
  rfl

theorem settled_latchMemory {s : State} (h : Settled s) (v : Word) : Settled (latchMemory v s) := by
  unfold Settled commitPhase latchMemory
  simp only [h.F, h.D, h.E, h.RF]
  rfl

theorem settled_withSel {s : State} (h : Settled s) (x : Stage) : Settled { s with sel := x } := by
  show commitPhase _ = _
  unfold commitPhase
  simp only [Settled.F h, Settled.D h, Settled.E h, Settled.M h, Settled.RF h]

theorem settled_withRAM {s : State} (h : Settled s) (x : Memory) : Settled { s with RAM := x } := by
  show commitPhase _ = _
  unfold commitPhase
  simp only [Settled.F h, Settled.D h, Settled.E h, Settled.M h, Settled.RF h]

theorem settled_busWrite {s : State} (h : Settled s) (a v : Word) (wd : Width) : Settled (busWrite s a v wd) := by
  unfold busWrite
  split
  · exact settled_withRAM h _
  · exact h
  · exact h

/-- A tick settles the state, whatever state it starts from (R137, 10_state.md R41). -/
theorem settled_cycle (s : State) : Settled (cycle s) := settled_withSel (commitPhase_idem _) _

/-- Ticks keep a settled state settled. -/
theorem settled_runTicks (n : Nat) {s : State} (h : Settled s) : Settled (runTicks n s) := by
  induction n generalizing s with
  | zero => exact h
  | succ n ih => exact ih (settled_cycle s)

/-! ## Each tick in turn -/

/-- The Fetch tick (R140), from any state. -/
theorem cycle_fetch {s : State} (h : s.sel = .IF) :
    cycle s = { fetched (fetchWord s) s with sel := .DE } := by
  simp [cycle, computePhase, fetchCompute, decodeCompute, executeCompute, memoryCompute, writeBackCompute, h,
    commitPhase, fetched, fetchWord, nextStage, FetchCells.commit]

/-- The Decode tick (R145 to R148). -/
theorem cycle_decode {s : State} (hs : Settled s) (h : s.sel = .DE) :
    cycle s =
      { latchDecode (classOf (opcodeOf s.F.inst.value)) (selectImm s.F.inst.value s.D.imm32.value) s with
        sel := .EX } := by
  have hd : s.D.imm32.commit = .init s.D.imm32.value :=
    congrArg ClockedCell.init (congrArg (fun c => c.imm32.value) hs.D)
  obtain ⟨h1, h2, h3, h4⟩ := classOf_flags (opcodeOf s.F.inst.value)
  simp only [cycle, computePhase, fetchCompute, decodeCompute, executeCompute, memoryCompute, writeBackCompute, h,
    commitPhase, nextStage, latchDecode, DecodeCells.commit, hs.F, hs.E, hs.M, hs.RF, h1, h2, h3, h4, reduceCtorEq,
    if_true, if_false, ClockedCell.commit_set]
  unfold selectImm classOf
  generalize opcodeOf s.F.inst.value = op
  cases isStore op <;> cases isAluOp op <;> cases isLoad op <;> cases isLUI op <;> first | rfl | simp [hd]

/-- The Execute tick (R150 to R152), where the class flag is the opcode's. -/
theorem cycle_execute {s : State} (hs : Settled s) (h : s.sel = .EX)
    (hf : s.D.isAluOp.value = isAluOp s.D.opcode.value) :
    cycle s = { latchExecute (aluOfCells s.D) s with sel := .MEM } := by
  simp [cycle, computePhase, fetchCompute, decodeCompute, executeCompute, memoryCompute, writeBackCompute, h,
    commitPhase, nextStage, latchExecute, ExecuteCells.commit, hs.F, hs.D, hs.M, hs.RF, hf]

theorem storeArm_eq (s : State) :
    storeArm s = { s with RAM := (storeArm s).RAM } := by
  unfold storeArm busWrite
  split
  · split <;> rfl
  · split
    · split <;> rfl
    · split
      · split <;> rfl
      · rfl

/-- The MemoryAccess tick (R155 to R161). -/
theorem cycle_memory {s : State} (hs : Settled s) (h : s.sel = .MEM) :
    cycle s =
      { latchMemory ((memoryResult s).getD s.M.writebackValue.value) s with
        sel := .WB
        RAM := if s.E.isStore.value then (storeArm s).RAM else s.RAM } := by
  have hw : s.M.writebackValue.commit = .init s.M.writebackValue.value :=
    congrArg ClockedCell.init (congrArg (fun c => c.writebackValue.value) hs.M)
  have he : s.sel = .MEM := h
  unfold cycle computePhase
  simp only [fetchCompute, decodeCompute, executeCompute, h, reduceCtorEq, if_false]
  unfold memoryCompute writeBackCompute
  rw [storeArm_eq]
  cases hst : s.E.isStore.value <;> cases hr : memoryResult s <;>
    simp [h, commitPhase, latchMemory, MemoryCells.commit, nextStage, hs.F, hs.D, hs.E, hs.RF, hw, hst]

/-- The WriteBack tick (R165). -/
theorem cycle_writeBack {s : State} (hs : Settled s) (h : s.sel = .WB) :
    cycle s =
      atBoundary (if s.M.isAluOp.value || s.M.isLoad.value || s.M.isLUI.value then
        writeRegister s.M.rd.value s.M.writebackValue.value s else s) := by
  unfold cycle computePhase
  simp only [fetchCompute, decodeCompute, executeCompute, memoryCompute, h, reduceCtorEq, if_false]
  unfold writeBackCompute
  split
  · split
    · rw [commitPhase_rfStage hs]; simp [atBoundary, h, nextStage]
    · rw [hs]; simp [atBoundary, h, nextStage]
  · contradiction

end Sys2Proof.Machine
end

