-- ==== Sys2Proof/Laws/FiveTicks.lean ====
section
/-! SUPPORT. Five ticks from a Fetch boundary, class by class, as the instruction level says them. 40_pipeline_stages.md
R175, R180. -/

set_option Elab.async false

namespace Sys2Proof.Machine

open Sys2Proof

/-- The state after the first three ticks of the instruction `w` (R140 to R152). -/
theorem threeTicks {s : State} (h : s.sel = .IF) :
    cycle (cycle (cycle s)) =
      { issue (classOf (opcodeOf (fetchWord s))) (selectImm (fetchWord s) (fetched (fetchWord s) s).D.imm32.value)
          (fetched (fetchWord s) s) with sel := .MEM } := by
  have h1 : Settled { fetched (fetchWord s) s with sel := .DE } := settled_withSel (settled_fetched _ _) _
  rw [cycle_fetch h, cycle_decode h1 rfl, cycle_execute (settled_withSel (settled_latchDecode h1 _ _) _) rfl]
  · rfl
  · exact (classOf_flags _).1

/-- The class flags an instruction of class `c` carries into the MemoryAccess tick. -/
theorem issue_flags (c : InstrClass) (imm : Word) (s : State) :
    (issue c imm s).E.isAluOp.value = (c == .alu) ∧ (issue c imm s).E.isStore.value = (c == .store) ∧
    (issue c imm s).E.isLoad.value = (c == .load) ∧ (issue c imm s).E.isLUI.value = (c == .lui) :=
  ⟨rfl, rfl, rfl, rfl⟩

/-- The last two ticks, from the state the Execute tick left (R155 to R165). -/
theorem lastTwoTicks {u : State} (hu : Settled u) (h : u.sel = .MEM) :
    cycle (cycle u) =
      (let v := (memoryResult u).getD u.M.writebackValue.value
       let t := { latchMemory v u with RAM := if u.E.isStore.value then (storeArm u).RAM else u.RAM }
       atBoundary (if u.E.isAluOp.value || u.E.isLoad.value || u.E.isLUI.value then writeRegister u.E.rd.value v t
         else t)) := by
  rw [cycle_memory hu h]
  have h2 : Settled { latchMemory ((memoryResult u).getD u.M.writebackValue.value) u with
      sel := .WB, RAM := if u.E.isStore.value then (storeArm u).RAM else u.RAM } :=
    settled_withSel (settled_withRAM (settled_latchMemory hu ((memoryResult u).getD u.M.writebackValue.value))
      (if u.E.isStore.value then (storeArm u).RAM else u.RAM)) .WB
  rw [cycle_writeBack h2 rfl]
  by_cases hf : (u.E.isAluOp.value || u.E.isLoad.value || u.E.isLUI.value) = true
  · simp only [latchMemory, ClockedCell.value_init, hf, if_true]; rfl
  · simp only [latchMemory, ClockedCell.value_init, hf]; rfl

/-- Five ticks, for a word of any class. -/
theorem fiveTicks {s : State} (h : s.sel = .IF) :
    runTicks 5 s =
      (let w := fetchWord s
       let u := issue (classOf (opcodeOf w)) (selectImm w (fetched w s).D.imm32.value) (fetched w s)
       let u' := { u with sel := .MEM }
       let v := (memoryResult u').getD u.M.writebackValue.value
       let t := { latchMemory v u' with RAM := if u.E.isStore.value then (storeArm u').RAM else u.RAM }
       atBoundary (if u.E.isAluOp.value || u.E.isLoad.value || u.E.isLUI.value then writeRegister u.E.rd.value v t
         else t)) := by
  show cycle (cycle (cycle (cycle (cycle s)))) = _
  have hu : Settled (issue (classOf (opcodeOf (fetchWord s)))
      (selectImm (fetchWord s) (fetched (fetchWord s) s).D.imm32.value) (fetched (fetchWord s) s)) :=
    settled_latchExecute (settled_latchDecode (settled_fetched _ _) _ _) _
  rw [threeTicks h, lastTwoTicks (settled_withSel hu .MEM) rfl]

/-- What execute_stage computes from the Decode cells of a word (R150, R151). -/
theorem aluOfCells_latchDecode (c : InstrClass) (imm : Word) (f : State) :
    aluOfCells (latchDecode c imm f).D =
      alu (funct3Of f.F.inst.value) (isRegisterOp (opcodeOf f.F.inst.value)) (isAlternate imm)
        (operand f (rs1Of f.F.inst.value)) (operand f (rs2Of f.F.inst.value)) (sext12 (imm.extractLsb' 0 12))
        (shamtOf f.F.inst.value) := rfl

/-- For an I-type immediate, bit 10 is bit 30 of the word and the 12-bit field extends to the immediate itself (R150). -/
theorem aluOfCells_immI (c : InstrClass) (f : State) :
    aluOfCells (latchDecode c (immI f.F.inst.value) f).D =
      alu (funct3Of f.F.inst.value) (isRegisterOp (opcodeOf f.F.inst.value)) (bit30 (funct7Of f.F.inst.value))
        (operand f (rs1Of f.F.inst.value)) (operand f (rs2Of f.F.inst.value)) (immI f.F.inst.value)
        (shamtOf f.F.inst.value) := by
  rw [aluOfCells_latchDecode, isAlternate, immI_bit10]
  congr 1
  unfold immI
  rw [sext12_low]

theorem storeArm_RAM_congr {s t : State} (hE : t.E = s.E) (h : t.RAM = s.RAM) :
    (storeArm t).RAM = (storeArm s).RAM := by
  unfold storeArm memoryAddress
  rw [hE]
  split
  · exact busWrite_RAM_congr h _ _ _
  · split
    · exact busWrite_RAM_congr h _ _ _
    · split
      · exact busWrite_RAM_congr h _ _ _
      · exact h

section ByClass

variable {s : State} (h : s.sel = .IF)

include h

/-- An ALU operation, either form (R159, R180). -/
theorem fiveTicks_alu (hc : classOf (opcodeOf (fetchWord s)) = .alu) :
    runTicks 5 s =
      (let w := fetchWord s
       let f := fetched w s
       retireAlu (rdOf w)
         (alu (funct3Of w) (isRegisterOp (opcodeOf w)) (bit30 (funct7Of w)) (operand f (rs1Of w)) (operand f (rs2Of w))
           (immI w) (shamtOf w)) f) := by
  have ha := aluOfCells_immI .alu (fetched (fetchWord s) s)
  rw [fetched_F] at ha
  rw [fiveTicks h]
  simp only [hc, selectImm]
  unfold retireAlu issue
  simp only [fetched_F, ClockedCell.value_init] at ha ⊢
  rw [ha]
  rfl

/-- LUI (R158, R180). -/
theorem fiveTicks_lui (hc : classOf (opcodeOf (fetchWord s)) = .lui) :
    runTicks 5 s = retireLui (rdOf (fetchWord s)) (immU (fetchWord s)) (fetched (fetchWord s) s) := by
  rw [fiveTicks h]
  simp only [hc, selectImm]
  rfl

/-- A load of any `funct3` (R157, R180). -/
theorem fiveTicks_load (hc : classOf (opcodeOf (fetchWord s)) = .load) :
    runTicks 5 s =
      (let w := fetchWord s
       let f := fetched w s
       retireLoad (rdOf w) ((loadArm (issue .load (immI w) f)).getD f.M.writebackValue.value) f) := by
  rw [fiveTicks h]
  simp only [hc, selectImm]
  rfl

/-- A store of any `funct3` (R156, R180). -/
theorem fiveTicks_store (hc : classOf (opcodeOf (fetchWord s)) = .store) :
    runTicks 5 s =
      (let w := fetchWord s
       let f := fetched w s
       { retireStore f with RAM := (storeArm (issue .store (immS w) f)).RAM }) := by
  rw [fiveTicks h]
  simp only [hc, selectImm]
  rw [storeArm_RAM_congr (s := issue .store (immS (fetchWord s)) (fetched (fetchWord s) s))
    (t := { issue .store (immS (fetchWord s)) (fetched (fetchWord s) s) with sel := .MEM }) rfl rfl]
  obtain ⟨h1, h2, h3, h4⟩ := issue_flags .store (immS (fetchWord s)) (fetched (fetchWord s) s)
  have hr : memoryResult { issue .store (immS (fetchWord s)) (fetched (fetchWord s) s) with sel := .MEM } = none := by
    unfold memoryResult
    simp only [h2, if_true, beq_self_eq_true]
  have hn : (InstrClass.store == InstrClass.alu || InstrClass.store == InstrClass.load ||
      InstrClass.store == InstrClass.lui) = false := by decide
  have hm : (issue .store (immS (fetchWord s)) (fetched (fetchWord s) s)).M.writebackValue.value =
      (fetched (fetchWord s) s).M.writebackValue.value := rfl
  simp only [h1, h2, h3, h4, hr, hn, hm, beq_self_eq_true, if_true, Bool.false_eq_true, if_false, Option.getD_none]
  unfold retireStore
  generalize storeArm (issue .store (immS (fetchWord s)) (fetched (fetchWord s) s)) = r
  simp only [fetched_F, ClockedCell.value_init]
  generalize issue .store (immS (fetchWord s)) (fetched (fetchWord s) s) = u
  rfl

/-- A word of no class (R160, R285). -/
theorem fiveTicks_noClass (hc : classOf (opcodeOf (fetchWord s)) = .noClass) :
    runTicks 5 s = retireNoClass (fetched (fetchWord s) s) := by
  rw [fiveTicks h]
  simp only [hc, selectImm]
  rfl

end ByClass

end Sys2Proof.Machine
end

