-- ==== Sys2Proof/Laws/HostInterface.lean ====
section
/-! SUPPORT. The laws of the host's moves: what `load` leaves in ROM, and what a list of preset bus writes does.
70_reset_and_hazards.md R340, R344; 20_memory.md R71. -/

set_option Elab.async false

namespace Sys2Proof.Machine

open Sys2Proof

/-! ## The ROM image -/

/-- A cell before a canonical rest: listed or not, it reads as its byte and shadows nothing. -/
theorem read_romCell_append (k : Nat) (b : Byte) (m : Memory) {size : Nat} (a : Nat)
    (h : Memory.wfFrom (Config.fillByte .rom) size (k + 1) m = true) :
    Memory.read (Config.fillByte .rom) (romCell k b ++ m) a =
      if a = k then b else Memory.read (Config.fillByte .rom) m a := by
  unfold romCell
  by_cases hb : b = Config.fillByte .rom
  · by_cases ha : a = k
    · simp [hb, ha, Memory.read_below _ size h (Nat.lt_succ_self k)]
    · simp [hb, ha]
  · simp [hb, Memory.read]

/-- A cell inside the device before a canonical rest keeps the form. -/
theorem wfFrom_romCell_append {k size : Nat} (b : Byte) {m : Memory} (hk : k < size)
    (h : Memory.wfFrom (Config.fillByte .rom) size (k + 1) m = true) :
    Memory.wfFrom (Config.fillByte .rom) size k (romCell k b ++ m) = true := by
  unfold romCell
  by_cases hb : b = Config.fillByte .rom
  · simpa [hb] using Memory.wfFrom_mono _ _ h (Nat.le_succ k)
  · simp [hb, Memory.wfFrom, hk, h]

/-- `load` keeps the canonical form: the image of a program that fits lies inside the device. -/
theorem wfFrom_romImage {size : Nat} (i : Nat) (ws : List Word) (h : 4 * (i + ws.length) ≤ size) :
    Memory.wfFrom (Config.fillByte .rom) size (4 * i) (romImage i ws) = true := by
  induction ws generalizing i with
  | nil => rfl
  | cons w rest ih =>
    simp only [List.length_cons] at h
    have := ih (i + 1) (by omega)
    simp only [romImage, List.append_assoc]
    exact wfFrom_romCell_append _ (by omega) (wfFrom_romCell_append _ (by omega)
      (wfFrom_romCell_append _ (by omega) (wfFrom_romCell_append _ (by omega) this)))

/-- What `load` leaves (R71): the program's words from index `i` on, the fill word after them. -/
theorem word_romImage (i : Nat) (ws : List Word) (k : Nat) :
    Memory.word (Config.fillByte .rom) (romImage i ws) (i + k) = ws.getD k 0xFFFFFFFF#32 := by
  induction ws generalizing i k with
  | nil => simp only [Memory.word, romImage, Memory.read, List.getD_nil]; decide
  | cons w rest ih =>
    have h := wfFrom_romImage (i + 1) rest (Nat.le_refl _)
    have h' : Memory.wfFrom (Config.fillByte .rom) _ (4 * i + 3 + 1) (romImage (i + 1) rest) = true := h
    have h3 := wfFrom_romCell_append (k := 4 * i + 3) (byteOf w 3) (by omega) h'
    have h2 := wfFrom_romCell_append (k := 4 * i + 2) (byteOf w 2) (by omega) h3
    have h1 := wfFrom_romCell_append (k := 4 * i + 1) (byteOf w 1) (by omega) h2
    have hread : ∀ a, Memory.read (Config.fillByte .rom) (romImage i (w :: rest)) a =
        if a = 4 * i then byteOf w 0 else if a = 4 * i + 1 then byteOf w 1 else if a = 4 * i + 2 then byteOf w 2
        else if a = 4 * i + 3 then byteOf w 3 else Memory.read (Config.fillByte .rom) (romImage (i + 1) rest) a := by
      intro a
      simp only [romImage, List.append_assoc]
      rw [read_romCell_append _ _ _ _ h1, read_romCell_append _ _ _ _ h2, read_romCell_append _ _ _ _ h3,
        read_romCell_append _ _ _ _ h']
    cases k with
    | zero => simp [Memory.word, hread]
    | succ k =>
      have := ih (i + 1) k
      rw [show i + 1 + k = i + (k + 1) by omega] at this
      simp only [Memory.word] at this ⊢
      rw [hread, hread, hread, hread]
      simp (disch := omega) only [if_neg]
      simpa using this

/-- The ROM of a loaded machine, read through the bus (R61, R71). -/
theorem busRead_romImage {s : State} (ws : List Word) (hRom : s.ROM = romImage 0 ws) (hLoaded : s.romLoaded = true)
    {i : Nat} (hi : i < 262144) :
    busRead s (0x10000000#32 + BitVec.ofNat 32 (4 * i)) .word = ws.getD i 0xFFFFFFFF#32 := by
  have hr : route (0x10000000#32 + BitVec.ofNat 32 (4 * i)) = some .rom := by
    unfold route
    rw [if_pos]
    apply BitVec.eq_of_toNat_eq
    simp only [BitVec.extractLsb'_toNat, BitVec.toNat_add, BitVec.toNat_ofNat, Nat.shiftRight_eq_div_pow]
    omega
  have hx : wordIndex .rom (localOf (0x10000000#32 + BitVec.ofNat 32 (4 * i))) = i := by
    simp only [wordIndex, localOf, Config.deviceWords, BitVec.extractLsb'_toNat, BitVec.toNat_add,
      BitVec.toNat_ofNat, Nat.shiftRight_zero]
    omega
  have := word_romImage 0 ws i
  rw [Nat.zero_add] at this
  simp [busRead, hr, devRead, sliceRead, hx, deviceWord, hLoaded, hRom, this]

/-! ## The preset writes -/

/-- The preset writes are bus writes, made in order (R344). -/
theorem presetRam_eq_foldl (s : State) (ws : List (Word × Word × Width)) :
    presetRam s ws = ws.foldl (fun s w => busWrite s w.1 w.2.1 w.2.2) s := by
  induction ws generalizing s with
  | nil => rfl
  | cons w rest ih => exact ih _

/-- The preset writes change RAM alone. -/
theorem presetRam_eq (s : State) (ws : List (Word × Word × Width)) :
    presetRam s ws = { s with RAM := (presetRam s ws).RAM } := by
  induction ws generalizing s with
  | nil => rfl
  | cons w rest ih =>
    simp only [presetRam, hostBusWrite]
    rw [ih (busWrite s w.1 w.2.1 w.2.2), busWrite_eq]

/-- What the preset writes leave in RAM depends on RAM alone. -/
theorem presetRam_RAM_congr {s t : State} (h : t.RAM = s.RAM) (ws : List (Word × Word × Width)) :
    (presetRam t ws).RAM = (presetRam s ws).RAM := by
  induction ws generalizing s t with
  | nil => exact h
  | cons w rest ih => exact ih (busWrite_RAM_congr h w.1 w.2.1 w.2.2)

/-- The preset writes keep both arrays canonical. -/
theorem memoriesWf_presetRam {s : State} (h : MemoriesWf s) (ws : List (Word × Word × Width)) :
    MemoriesWf (presetRam s ws) := by
  induction ws generalizing s with
  | nil => exact h
  | cons w rest ih => exact ih (memoriesWf_busWrite h w.1 w.2.1 w.2.2)

end Sys2Proof.Machine
end

