-- ==== Sys2Proof/Laws/PerInstr.lean ====
section
/-! SUPPORT. Statements made per instruction: every well-formed instruction's word selects its own row of the opcode
table. 30_encoding.md R118. -/

set_option Elab.async false

namespace Sys2Proof.Laws.RowMatch

open Sys2Proof

/-- The word of a well-formed instruction has, under its row's mask, its row's match. -/
def Statement (i : Instr) : Prop := i.wellFormed = true → encode i &&& (rowOf i).1 = (rowOf i).2

theorem add (rd rs1 rs2 : Reg) (funct7 : BitVec 7) : Statement (.add rd rs1 rs2 funct7) := by
  intro h
  simp only [Instr.wellFormed, Bool.not_eq_true'] at h
  simp only [encode, rowOf, and_bit30Mask, opcodeOf_encodeR, funct3Of_encodeR, funct7Of_encodeR, h]
  decide

theorem sub (rd rs1 rs2 : Reg) (funct7 : BitVec 7) : Statement (.sub rd rs1 rs2 funct7) := by
  intro h
  simp only [Instr.wellFormed] at h
  simp only [encode, rowOf, and_bit30Mask, opcodeOf_encodeR, funct3Of_encodeR, funct7Of_encodeR, h]
  decide

theorem sll (rd rs1 rs2 : Reg) (funct7 : BitVec 7) : Statement (.sll rd rs1 rs2 funct7) := by
  intro _
  simp only [encode, rowOf, and_funct3Mask, opcodeOf_encodeR, funct3Of_encodeR]
  decide

theorem slt (rd rs1 rs2 : Reg) (funct7 : BitVec 7) : Statement (.slt rd rs1 rs2 funct7) := by
  intro _
  simp only [encode, rowOf, and_funct3Mask, opcodeOf_encodeR, funct3Of_encodeR]
  decide

theorem sltu (rd rs1 rs2 : Reg) (funct7 : BitVec 7) : Statement (.sltu rd rs1 rs2 funct7) := by
  intro _
  simp only [encode, rowOf, and_funct3Mask, opcodeOf_encodeR, funct3Of_encodeR]
  decide

theorem xor (rd rs1 rs2 : Reg) (funct7 : BitVec 7) : Statement (.xor rd rs1 rs2 funct7) := by
  intro _
  simp only [encode, rowOf, and_funct3Mask, opcodeOf_encodeR, funct3Of_encodeR]
  decide

theorem srl (rd rs1 rs2 : Reg) (funct7 : BitVec 7) : Statement (.srl rd rs1 rs2 funct7) := by
  intro h
  simp only [Instr.wellFormed, Bool.not_eq_true'] at h
  simp only [encode, rowOf, and_bit30Mask, opcodeOf_encodeR, funct3Of_encodeR, funct7Of_encodeR, h]
  decide

theorem sra (rd rs1 rs2 : Reg) (funct7 : BitVec 7) : Statement (.sra rd rs1 rs2 funct7) := by
  intro h
  simp only [Instr.wellFormed] at h
  simp only [encode, rowOf, and_bit30Mask, opcodeOf_encodeR, funct3Of_encodeR, funct7Of_encodeR, h]
  decide

theorem or (rd rs1 rs2 : Reg) (funct7 : BitVec 7) : Statement (.or rd rs1 rs2 funct7) := by
  intro _
  simp only [encode, rowOf, and_funct3Mask, opcodeOf_encodeR, funct3Of_encodeR]
  decide

theorem and (rd rs1 rs2 : Reg) (funct7 : BitVec 7) : Statement (.and rd rs1 rs2 funct7) := by
  intro _
  simp only [encode, rowOf, and_funct3Mask, opcodeOf_encodeR, funct3Of_encodeR]
  decide

theorem addi (rd rs1 : Reg) (imm : BitVec 12) : Statement (.addi rd rs1 imm) := by
  intro _
  simp only [encode, rowOf, and_funct3Mask, opcodeOf_encodeI, funct3Of_encodeI]
  decide

theorem slti (rd rs1 : Reg) (imm : BitVec 12) : Statement (.slti rd rs1 imm) := by
  intro _
  simp only [encode, rowOf, and_funct3Mask, opcodeOf_encodeI, funct3Of_encodeI]
  decide

theorem sltiu (rd rs1 : Reg) (imm : BitVec 12) : Statement (.sltiu rd rs1 imm) := by
  intro _
  simp only [encode, rowOf, and_funct3Mask, opcodeOf_encodeI, funct3Of_encodeI]
  decide

theorem xori (rd rs1 : Reg) (imm : BitVec 12) : Statement (.xori rd rs1 imm) := by
  intro _
  simp only [encode, rowOf, and_funct3Mask, opcodeOf_encodeI, funct3Of_encodeI]
  decide

theorem ori (rd rs1 : Reg) (imm : BitVec 12) : Statement (.ori rd rs1 imm) := by
  intro _
  simp only [encode, rowOf, and_funct3Mask, opcodeOf_encodeI, funct3Of_encodeI]
  decide

theorem andi (rd rs1 : Reg) (imm : BitVec 12) : Statement (.andi rd rs1 imm) := by
  intro _
  simp only [encode, rowOf, and_funct3Mask, opcodeOf_encodeI, funct3Of_encodeI]
  decide

theorem slli (rd rs1 : Reg) (shamt : BitVec 5) (upper : BitVec 7) : Statement (.slli rd rs1 shamt upper) := by
  intro _
  simp only [encode, rowOf, and_funct3Mask, opcodeOf_encodeR, funct3Of_encodeR]
  decide

theorem srli (rd rs1 : Reg) (shamt : BitVec 5) (upper : BitVec 7) : Statement (.srli rd rs1 shamt upper) := by
  intro h
  simp only [Instr.wellFormed, Bool.not_eq_true'] at h
  simp only [encode, rowOf, and_bit30Mask, opcodeOf_encodeR, funct3Of_encodeR, funct7Of_encodeR, h]
  decide

theorem srai (rd rs1 : Reg) (shamt : BitVec 5) (upper : BitVec 7) : Statement (.srai rd rs1 shamt upper) := by
  intro h
  simp only [Instr.wellFormed] at h
  simp only [encode, rowOf, and_bit30Mask, opcodeOf_encodeR, funct3Of_encodeR, funct7Of_encodeR, h]
  decide

theorem lui (rd : Reg) (imm20 : BitVec 20) : Statement (.lui rd imm20) := by
  intro _
  simp only [encode, rowOf, and_opcodeMask, opcodeOf_encodeU]
  decide

theorem lb (rd rs1 : Reg) (imm : BitVec 12) : Statement (.lb rd rs1 imm) := by
  intro _
  simp only [encode, rowOf, and_funct3Mask, opcodeOf_encodeI, funct3Of_encodeI]
  decide

theorem lh (rd rs1 : Reg) (imm : BitVec 12) : Statement (.lh rd rs1 imm) := by
  intro _
  simp only [encode, rowOf, and_funct3Mask, opcodeOf_encodeI, funct3Of_encodeI]
  decide

theorem lw (rd rs1 : Reg) (imm : BitVec 12) : Statement (.lw rd rs1 imm) := by
  intro _
  simp only [encode, rowOf, and_funct3Mask, opcodeOf_encodeI, funct3Of_encodeI]
  decide

theorem loadF3is3 (rd rs1 : Reg) (imm : BitVec 12) : Statement (.loadF3is3 rd rs1 imm) := by
  intro _
  simp only [encode, rowOf, and_funct3Mask, opcodeOf_encodeI, funct3Of_encodeI]
  decide

theorem lbu (rd rs1 : Reg) (imm : BitVec 12) : Statement (.lbu rd rs1 imm) := by
  intro _
  simp only [encode, rowOf, and_funct3Mask, opcodeOf_encodeI, funct3Of_encodeI]
  decide

theorem lhu (rd rs1 : Reg) (imm : BitVec 12) : Statement (.lhu rd rs1 imm) := by
  intro _
  simp only [encode, rowOf, and_funct3Mask, opcodeOf_encodeI, funct3Of_encodeI]
  decide

theorem loadF3is6 (rd rs1 : Reg) (imm : BitVec 12) : Statement (.loadF3is6 rd rs1 imm) := by
  intro _
  simp only [encode, rowOf, and_funct3Mask, opcodeOf_encodeI, funct3Of_encodeI]
  decide

theorem loadF3is7 (rd rs1 : Reg) (imm : BitVec 12) : Statement (.loadF3is7 rd rs1 imm) := by
  intro _
  simp only [encode, rowOf, and_funct3Mask, opcodeOf_encodeI, funct3Of_encodeI]
  decide

theorem sb (rs1 rs2 : Reg) (imm : BitVec 12) : Statement (.sb rs1 rs2 imm) := by
  intro _
  simp only [encode, rowOf, and_funct3Mask, opcodeOf_encodeS, funct3Of_encodeS]
  decide

theorem sh (rs1 rs2 : Reg) (imm : BitVec 12) : Statement (.sh rs1 rs2 imm) := by
  intro _
  simp only [encode, rowOf, and_funct3Mask, opcodeOf_encodeS, funct3Of_encodeS]
  decide

theorem sw (rs1 rs2 : Reg) (imm : BitVec 12) : Statement (.sw rs1 rs2 imm) := by
  intro _
  simp only [encode, rowOf, and_funct3Mask, opcodeOf_encodeS, funct3Of_encodeS]
  decide

theorem storeF3is3 (rs1 rs2 : Reg) (imm : BitVec 12) : Statement (.storeF3is3 rs1 rs2 imm) := by
  intro _
  simp only [encode, rowOf, and_funct3Mask, opcodeOf_encodeS, funct3Of_encodeS]
  decide

theorem storeF3is4 (rs1 rs2 : Reg) (imm : BitVec 12) : Statement (.storeF3is4 rs1 rs2 imm) := by
  intro _
  simp only [encode, rowOf, and_funct3Mask, opcodeOf_encodeS, funct3Of_encodeS]
  decide

theorem storeF3is5 (rs1 rs2 : Reg) (imm : BitVec 12) : Statement (.storeF3is5 rs1 rs2 imm) := by
  intro _
  simp only [encode, rowOf, and_funct3Mask, opcodeOf_encodeS, funct3Of_encodeS]
  decide

theorem storeF3is6 (rs1 rs2 : Reg) (imm : BitVec 12) : Statement (.storeF3is6 rs1 rs2 imm) := by
  intro _
  simp only [encode, rowOf, and_funct3Mask, opcodeOf_encodeS, funct3Of_encodeS]
  decide

theorem storeF3is7 (rs1 rs2 : Reg) (imm : BitVec 12) : Statement (.storeF3is7 rs1 rs2 imm) := by
  intro _
  simp only [encode, rowOf, and_funct3Mask, opcodeOf_encodeS, funct3Of_encodeS]
  decide

theorem branch (rest : BitVec 25) : Statement (.branch rest) := by
  intro _
  simp only [encode, rowOf, and_opcodeMask, opcodeOf_encodeRest]
  decide

theorem jal (rest : BitVec 25) : Statement (.jal rest) := by
  intro _
  simp only [encode, rowOf, and_opcodeMask, opcodeOf_encodeRest]
  decide

theorem jalr (rest : BitVec 25) : Statement (.jalr rest) := by
  intro _
  simp only [encode, rowOf, and_opcodeMask, opcodeOf_encodeRest]
  decide

theorem auipc (rest : BitVec 25) : Statement (.auipc rest) := by
  intro _
  simp only [encode, rowOf, and_opcodeMask, opcodeOf_encodeRest]
  decide

theorem miscMem (rest : BitVec 25) : Statement (.miscMem rest) := by
  intro _
  simp only [encode, rowOf, and_opcodeMask, opcodeOf_encodeRest]
  decide

theorem system (rest : BitVec 25) : Statement (.system rest) := by
  intro _
  simp only [encode, rowOf, and_opcodeMask, opcodeOf_encodeRest]
  decide

theorem unrecognized (word : Word) : Statement (.unrecognized word) := by
  intro _
  simp [rowOf]

end Sys2Proof.Laws.RowMatch
end

