-- ==== Sys2Proof/Laws/Retire.lean ====
section
/-! SUPPORT. Everything a retirement does, once per class, in the terms of the statements: which register takes which
value and what else stays. 40_pipeline_stages.md R180. -/

set_option Elab.async false

namespace Sys2Proof.Machine

open Sys2Proof

section Retire

variable {s : State} (h : Settled s) (w : Word) (rd : Reg) (v : Word)

include h

/-- The registers after the write of `v` to `rd`, over the state the Fetch tick left. -/
theorem rfValue_retired {t : State} (ht : t.RF = (writeRegister rd v (fetched w s)).RF) :
    rfValue t rd = v ∧ ∀ r, r ≠ rd → rfValue t r = rfValue s r := by
  have e := rfValue_congr ht
  refine ⟨?_, fun r hr => ?_⟩
  · rw [e, rfValue_writeRegister, if_pos rfl]
  · rw [e, rfValue_writeRegister, if_neg hr, rfValue_fetched h]

/-- An ALU operation (R159, R200, R220). -/
theorem writesRegister_retireAlu : WritesRegister s (retireAlu rd v (fetched w s)) rd v := by
  obtain ⟨h1, h2⟩ := rfValue_retired h w rd v (t := retireAlu rd v (fetched w s)) rfl
  exact ⟨h1, h2, rfl, ⟨rfl, rfl, rfl, rfl⟩, rfl, fun a wd => busRead_congr rfl rfl rfl a wd⟩

/-- LUI (R158, R240). -/
theorem writesRegister_retireLui : WritesRegister s (retireLui rd v (fetched w s)) rd v := by
  obtain ⟨h1, h2⟩ := rfValue_retired h w rd v (t := retireLui rd v (fetched w s)) rfl
  exact ⟨h1, h2, rfl, ⟨rfl, rfl, rfl, rfl⟩, rfl, fun a wd => busRead_congr rfl rfl rfl a wd⟩

/-- A load (R157, R250). -/
theorem writesRegister_retireLoad : WritesRegister s (retireLoad rd v (fetched w s)) rd v := by
  obtain ⟨h1, h2⟩ := rfValue_retired h w rd v (t := retireLoad rd v (fetched w s)) rfl
  exact ⟨h1, h2, rfl, ⟨rfl, rfl, rfl, rfl⟩, rfl, fun a wd => busRead_congr rfl rfl rfl a wd⟩

/-- The held `M.writebackValue` of a settled state is the one the Fetch tick leaves. -/
theorem writebackValue_fetched : (fetched w s).M.writebackValue.value = s.M.writebackValue.value := by
  rw [fetched_M, h.M]

/-- A store, but for its bus write (R156, R270). -/
theorem writesNoRegister_retireStore :
    WritesNoRegister s (retireStore (fetched w s)) ∧ HoldsWritebackValue s (retireStore (fetched w s)) ∧
    MemoryUnchanged s (retireStore (fetched w s)) := by
  refine ⟨⟨fun r => ?_, rfl, rfl, rfl, rfl⟩, writebackValue_fetched h w, rfl, fun a wd => busRead_congr rfl rfl rfl a wd⟩
  exact (rfValue_congr (s := fetched w s) rfl r).trans (rfValue_fetched h w r)

/-- A word of no class (R160, R285). -/
theorem writesNoRegister_retireNoClass :
    WritesNoRegister s (retireNoClass (fetched w s)) ∧ HoldsWritebackValue s (retireNoClass (fetched w s)) ∧
    MemoryUnchanged s (retireNoClass (fetched w s)) := by
  refine ⟨⟨fun r => ?_, rfl, rfl, rfl, rfl⟩, writebackValue_fetched h w, rfl, fun a wd => busRead_congr rfl rfl rfl a wd⟩
  exact (rfValue_congr (s := fetched w s) rfl r).trans (rfValue_fetched h w r)

end Retire

/-- A bus write changes neither registers nor anything a step moves (20_memory.md R62). -/
theorem writesNoRegister_busWrite {s t : State} (h : WritesNoRegister s t) (a v : Word) (wd : Width) :
    WritesNoRegister s (busWrite t a v wd) := by
  obtain ⟨h1, h3, h4, h5, h6⟩ := h
  refine ⟨fun r => ?_, ?_, ?_, ?_, ?_⟩
  · rw [rfValue_congr (busWrite_RF t a v wd), h1]
  · rw [busWrite_F, h3]
  · rw [busWrite_sel, h4]
  · rw [busWrite_ROM, h5]
  · rw [busWrite_romLoaded, h6]

end Sys2Proof.Machine
end

