-- ==== Sys2Proof/Tests/Slice0.lean ====
section
/-! SUPPORT. The model's own tests, each on one word or one step, with expected results the spec writes out (files 41 to
46, 95_test_vectors.md; the vector's id stands before the test), the smoke test of WellFormed, and a witness for the
hypotheses of every statement that has hypotheses. -/

set_option Elab.async false

namespace Sys2Proof.Tests

open Sys2Proof Sys2Proof.Machine

/-! ## WellFormed refuses an ill-formed term, one for each check -/

theorem test_wf_add_bit30 : (Instr.add 3 1 2 0b0100000).wellFormed = false := by decide
theorem test_wf_sub_bit30 : (Instr.sub 3 1 2 0b0000000).wellFormed = false := by decide
theorem test_wf_srl_bit30 : (Instr.srl 3 1 2 0b0100000).wellFormed = false := by decide
theorem test_wf_sra_bit30 : (Instr.sra 3 1 2 0b1011111).wellFormed = false := by decide
theorem test_wf_srli_bit30 : (Instr.srli 3 1 4 0b0100000).wellFormed = false := by decide
theorem test_wf_srai_bit30 : (Instr.srai 3 1 4 0b0000000).wellFormed = false := by decide
/-- The word of `add x3, x1, x2` is no word of the fallback row. -/
theorem test_wf_unrecognized : (Instr.unrecognized 0x002081B3).wellFormed = false := by decide
theorem test_wf_accepts : (Instr.sra 16 11 12 0b0100000).wellFormed = true ∧
    (Instr.unrecognized 0xFFFFFFFF).wellFormed = true := by decide

/-! ## Decoding, on words written out from the encodings of 30_encoding.md R102 -/

/-- One word of each format, field by field. -/
theorem test_formats :
    (0b0000000#7 ++ 2#5 ++ 1#5 ++ 0b000#3 ++ 3#5 ++ 0b0110011#7 : Word) = 0x002081B3 ∧
    (0b101010101010#12 ++ 1#5 ++ 0b000#3 ++ 1#5 ++ 0b0010011#7 : Word) = 0xAAA08093 ∧
    (0b1111111#7 ++ 3#5 ++ 2#5 ++ 0b010#3 ++ 0b11100#5 ++ 0b0100011#7 : Word) = 0xFE312E23 ∧
    (0b10101010101010101010#20 ++ 1#5 ++ 0b0110111#7 : Word) = 0xAAAAA0B7 := by decide

/-- 41_alu_register.md. -/
theorem test_decode_aluRegister :
    decode 0x002081B3#32 = .add 3 1 2 0 ∧
    decode 0x402081B3#32 = .sub 3 1 2 0b0100000 ∧
    decode 0x002091B3#32 = .sll 3 1 2 0 ∧
    decode 0x0020A1B3#32 = .slt 3 1 2 0 ∧
    decode 0x0020B1B3#32 = .sltu 3 1 2 0 ∧
    decode 0x0020C1B3#32 = .xor 3 1 2 0 ∧
    decode 0x00C5D6B3#32 = .srl 13 11 12 0 ∧
    decode 0x40C5D833#32 = .sra 16 11 12 0b0100000 ∧
    decode 0x0020E1B3#32 = .or 3 1 2 0 ∧
    decode 0x0020F1B3#32 = .and 3 1 2 0 := by decide

/-- 95 B25 to B28: only bit 30 of `funct7` counts. -/
theorem test_decode_ignored_funct7 :
    decode 0x022081B3#32 = .add 3 1 2 0b0000001 ∧
    decode 0x0220C1B3#32 = .xor 3 1 2 0b0000001 ∧
    decode 0x4020C1B3#32 = .xor 3 1 2 0b0100000 ∧
    decode 0xFE2081B3#32 = .sub 3 1 2 0b1111111 := by decide

/-- 42_alu_immediate.md. -/
theorem test_decode_aluImmediate :
    decode 0xAAA08093#32 = .addi 1 1 0xAAA ∧
    decode 0x7FF0A193#32 = .slti 3 1 0x7FF ∧
    decode 0x8000B193#32 = .sltiu 3 1 0x800 ∧
    decode 0x7FF0C193#32 = .xori 3 1 0x7FF ∧
    decode 0x7FF0E193#32 = .ori 3 1 0x7FF ∧
    decode 0x8000F193#32 = .andi 3 1 0x800 ∧
    decode 0x00409193#32 = .slli 3 1 4 0 ∧
    decode 0xFE409193#32 = .slli 3 1 4 0b1111111 ∧
    decode 0x0040D193#32 = .srli 3 1 4 0 ∧
    decode 0x4010D193#32 = .srai 3 1 1 0b0100000 := by decide

/-- 43_lui.md. -/
theorem test_decode_lui :
    decode 0xAAAAA0B7#32 = .lui 1 0xAAAAA ∧
    decode 0xFFFFF2B7#32 = .lui 5 0xFFFFF := by decide

/-- 44_loads.md. -/
theorem test_decode_loads :
    decode 0x00110283#32 = .lb 5 2 1 ∧
    decode 0x00211283#32 = .lh 5 2 2 ∧
    decode 0xFFC12283#32 = .lw 5 2 0xFFC ∧
    decode 0x00013283#32 = .loadF3is3 5 2 0 ∧
    decode 0x00314283#32 = .lbu 5 2 3 ∧
    decode 0x00415283#32 = .lhu 5 2 4 ∧
    decode 0x00016283#32 = .loadF3is6 5 2 0 ∧
    decode 0x00017283#32 = .loadF3is7 5 2 0 := by decide

/-- 45_stores.md. -/
theorem test_decode_stores :
    decode 0x7E310FA3#32 = .sb 2 3 0x7FF ∧
    decode 0x80310023#32 = .sb 2 3 0x800 ∧
    decode 0x00311123#32 = .sh 2 3 2 ∧
    decode 0xFE312E23#32 = .sw 2 3 0xFFC ∧
    decode 0x00313023#32 = .storeF3is3 2 3 0 ∧
    decode 0x00314023#32 = .storeF3is4 2 3 0 ∧
    decode 0x00315023#32 = .storeF3is5 2 3 0 ∧
    decode 0x00316023#32 = .storeF3is6 2 3 0 ∧
    decode 0x00317023#32 = .storeF3is7 2 3 0 := by decide

/-- 46_unrecognized.md. -/
theorem test_decode_noClass :
    decode 0x00000463#32 = .branch 0b1000 ∧
    decode 0x008000EF#32 = .jal 0b10000000000000001 ∧
    decode 0x00008067#32 = .jalr 0b100000000 ∧
    decode 0x00001297#32 = .auipc 0b100101 ∧
    decode 0x0FF0000F#32 = .miscMem 0b111111110000000000000 ∧
    decode 0x00000073#32 = .system 0 ∧
    decode 0xFFFFFFFF#32 = .unrecognized 0xFFFFFFFF ∧
    decode 0x00000000#32 = .unrecognized 0 ∧
    decode 0x00000001#32 = .unrecognized 1 := by decide

/-- Big-endian: the byte at the lowest address is the word's most significant (20_memory.md R70). -/
theorem test_decodeBytes :
    decodeBytes [0x00, 0x20, 0x81, 0xB3, 0xFF] = .ok (.add 3 1 2 0, [0xFF]) ∧
    decodeBytes [0x00, 0x20, 0x81] = .error .fewerThanFourBytes := ⟨rfl, rfl⟩

/-- The rows of the opcode table, one instruction for each row but the fallback. -/
def rowsAlu : List Instr :=
  [.add 0 0 0 0, .sub 0 0 0 0, .sll 0 0 0 0, .slt 0 0 0 0, .sltu 0 0 0 0, .xor 0 0 0 0, .srl 0 0 0 0, .sra 0 0 0 0,
   .or 0 0 0 0, .and 0 0 0 0, .addi 0 0 0, .slti 0 0 0, .sltiu 0 0 0, .xori 0 0 0, .ori 0 0 0, .andi 0 0 0,
   .slli 0 0 0 0, .srli 0 0 0 0, .srai 0 0 0 0, .lui 0 0]

def rowsOther : List Instr :=
  [.lb 0 0 0, .lh 0 0 0, .lw 0 0 0, .loadF3is3 0 0 0, .lbu 0 0 0, .lhu 0 0 0, .loadF3is6 0 0 0, .loadF3is7 0 0 0,
   .sb 0 0 0, .sh 0 0 0, .sw 0 0 0, .storeF3is3 0 0 0, .storeF3is4 0 0 0, .storeF3is5 0 0 0, .storeF3is6 0 0 0,
   .storeF3is7 0 0 0, .branch 0, .jal 0, .jalr 0, .auipc 0, .miscMem 0, .system 0]

/-- Two rows differ in a bit both test, so that no word selects both (30_encoding.md R118). -/
theorem test_rows_disjoint :
    ((rowsAlu ++ rowsOther).map rowOf).Pairwise fun p q => (p.1 &&& q.1) &&& (p.2 ^^^ q.2) ≠ 0 := by decide +kernel

/-! ## One step of each instruction -/

/-- A settled machine with the program loaded, at the Fetch boundary after reset, with presets (70 R344): the registers
1, 2, 3 and 5, the held `M.writebackValue`, the first two RAM words, and one ROM word. -/
def start (x1 x2 x3 x5 wbv ram0 ram1 rom0 : Word) : State :=
  { State.reset with
    RF := (((State.reset.RF.set 1 (.init x1)).set 2 (.init x2)).set 3 (.init x3)).set 5 (.init x5)
    M := { State.reset.M with writebackValue := .init wbv }
    RAM := Memory.setWord 0 (Memory.setWord 0 [] 0 ram0) 1 ram1
    ROM := Memory.setWord 0xFF [] 0 rom0
    romLoaded := true }

/-- The next state of an outcome. -/
def nextOf : Result → Option State
  | .next t => some t
  | .fault _ => none
  | .refused _ => none

/-- Register `r` after the instruction `w`, with presets `x1`, `x2`. -/
def regAfter (w x1 x2 : Word) (r : Reg) : Option Word :=
  (nextOf (exec (decode w) (start x1 x2 0 0 0 0 0 w))).map fun t => rfValue t r

/-- B1, B2. -/
theorem test_add :
    regAfter 0x002081B3 0x7FFFFFFF 1 3 = some 0x80000000 ∧
    regAfter 0x002081B3 0xFFFFFFFF 0xFFFFFFFF 3 = some 0xFFFFFFFE := by decide +kernel

/-- B23: a write to register 0 lands in the cell. -/
theorem test_add_x0 :
    regAfter 0x00208033 3 4 0 = some 7 := by decide +kernel

/-- B3, B4. -/
theorem test_sub :
    regAfter 0x402081B3 0 0x80000000 3 = some 0x80000000 ∧
    regAfter 0x402081B3 3 5 3 = some 0xFFFFFFFE := by decide +kernel

/-- B5, B6. -/
theorem test_sll :
    regAfter 0x002091B3 0x0000FFFF 0x10 3 = some 0xFFFF0000 ∧
    regAfter 0x002091B3 0x0000FFFF 0x30 3 = some 0xFFFF0000 := by decide +kernel

/-- B7, B8. -/
theorem test_slt :
    regAfter 0x0020A1B3 0x80000000 0 3 = some 1 ∧
    regAfter 0x0020A1B3 0 0x80000000 3 = some 0 := by decide +kernel

/-- B9, B10. -/
theorem test_sltu :
    regAfter 0x0020B1B3 0x80000000 0 3 = some 0 ∧
    regAfter 0x0020B1B3 0 0x80000000 3 = some 1 := by decide +kernel

/-- B11, B27. -/
theorem test_xor :
    regAfter 0x0020C1B3 0xAAAAAAAA 0x55555555 3 = some 0xFFFFFFFF ∧
    regAfter 0x4020C1B3 0xFF 0x0F 3 = some 0xF0 := by decide +kernel

/-- B13, B16. -/
theorem test_srl :
    regAfter 0x0020D1B3 0xF000000F 4 3 = some 0x0F000000 ∧
    regAfter 0x0020D1B3 0xF000000F 0 3 = some 0xF000000F := by decide +kernel

/-- B14, B15. -/
theorem test_sra :
    regAfter 0x4020D1B3 0xF000000F 4 3 = some 0xFF000000 ∧
    regAfter 0x4020D1B3 0x4000000F 4 3 = some 0x04000000 := by decide +kernel

/-- B17, R209. -/
theorem test_or :
    regAfter 0x0020E1B3 0xAAAAAAAA 0x55555555 3 = some 0xFFFFFFFF ∧
    regAfter 0x0020E1B3 0x80000001 0x1F 3 = some 0x8000001F := by decide +kernel

/-- B18, B19. -/
theorem test_and :
    regAfter 0x0020F1B3 0xAAAAAAAA 0x55555555 3 = some 0 ∧
    regAfter 0x0020F1B3 0xDEADBEEF 0xFFFF0000 3 = some 0xDEAD0000 := by decide +kernel

/-- I2, I4: bit 30 does not subtract. -/
theorem test_addi :
    regAfter 0x80008193 0 0 3 = some 0xFFFFF800 ∧
    regAfter 0x40008193 0x100 0 3 = some 0x500 := by decide +kernel

/-- I6, I7. -/
theorem test_slti :
    regAfter 0xFFF0A193 0xFFFFFFFE 0 3 = some 1 ∧
    regAfter 0xFFF0A193 0 0 3 = some 0 := by decide +kernel

/-- I9, I12. -/
theorem test_sltiu :
    regAfter 0xFFF0B193 0xFFFFFFFE 0 3 = some 1 ∧
    regAfter 0x7FF0B193 0x800 0 3 = some 0 := by decide +kernel

/-- I13, I14. -/
theorem test_xori :
    regAfter 0xFFF0C193 0x12345678 0 3 = some 0xEDCBA987 ∧
    regAfter 0x5550C193 0xFFF 0 3 = some 0xAAA := by decide +kernel

/-- I15, I16. -/
theorem test_ori :
    regAfter 0x7000E193 0xFF 0 3 = some 0x7FF ∧
    regAfter 0x8000E193 0x7FF 0 3 = some 0xFFFFFFFF := by decide +kernel

/-- I17, I18. -/
theorem test_andi :
    regAfter 0x0FF0F193 0x12345678 0 3 = some 0x78 ∧
    regAfter 0xFF00F193 0x12345678 0 3 = some 0x12345670 := by decide +kernel

/-- I20, I27. -/
theorem test_slli :
    regAfter 0x01F09193 0x80000001 0 3 = some 0x80000000 ∧
    regAfter 0xFE409193 1 0 3 = some 0x10 := by decide +kernel

/-- I21, I22. -/
theorem test_srli :
    regAfter 0x01F0D193 0x80000001 0 3 = some 1 ∧
    regAfter 0x0000D193 0x80000001 0 3 = some 0x80000001 := by decide +kernel

/-- I23, I26: logical on this hardware. -/
theorem test_srai :
    regAfter 0x4040D193 0xF0000000 0 3 = some 0x0F000000 ∧
    regAfter 0x41F0D193 0x80000000 0 3 = some 1 := by decide +kernel

/-- L2, L5. -/
theorem test_lui :
    regAfter 0xFFFFF2B7 0 0 5 = some 0xFFFFF000 ∧
    regAfter 0x12345037 0 0 0 = some 0x12345000 := by decide +kernel

/-- `x5` after the load `w` from `RAM[0] = 0x80FF7F01`, `RAM[1] = 0xFFFF8000`, with base `x2`. -/
def loadAfter (w x2 : Word) : Option Word :=
  (nextOf (exec (decode w) (start 0 x2 0 0x1111 0xDEADBEEF 0x80FF7F01 0xFFFF8000 w))).map fun t => rfValue t 5

/-- M1, M4, M27 (from ROM). -/
theorem test_lb :
    loadAfter 0x00010283 0x20000000 = some 0xFFFFFF80 ∧
    loadAfter 0x00310283 0x20000000 = some 1 ∧
    loadAfter 0x00310283 0x10000000 = some 0xFFFFFF83 := by decide +kernel

/-- M8, M11. -/
theorem test_lh :
    loadAfter 0x00011283 0x20000000 = some 0xFFFF80FF ∧
    loadAfter 0x00611283 0x20000000 = some 0xFFFF8000 := by decide +kernel

/-- M20 (misaligned), M23. -/
theorem test_lw :
    loadAfter 0x00712283 0x20000000 = some 0xFFFF8000 ∧
    loadAfter 0x7FF12283 0x1FFFF805 = some 0xFFFF8000 := by decide +kernel

/-- M25 (alias), M26 (ROM), M30 (unmapped), M31. -/
theorem test_lw_map :
    loadAfter 0x00012283 0x2FC00004 = some 0xFFFF8000 ∧
    loadAfter 0x00012283 0x10000000 = some 0x00012283 ∧
    loadAfter 0x00412283 0xFFFFFFFC = some 0 ∧
    loadAfter 0x00412283 0x1FFFFFFC = some 0x80FF7F01 := by decide +kernel

/-- M41, with the held value of M42. -/
theorem test_loadF3is3 :
    loadAfter 0x00013283 0x20000000 = some 0xDEADBEEF := by decide +kernel

/-- M5, M6. -/
theorem test_lbu :
    loadAfter 0x00014283 0x20000000 = some 0x80 ∧
    loadAfter 0x00114283 0x20000000 = some 0xFF := by decide +kernel

/-- M12, M15. -/
theorem test_lhu :
    loadAfter 0x00015283 0x20000000 = some 0x80FF ∧
    loadAfter 0x00615283 0x20000000 = some 0x8000 := by decide +kernel

/-- M40. -/
theorem test_loadF3is6 :
    loadAfter 0x00016283 0x20000000 = some 0x80FF7F01 := by decide +kernel

/-- M42. -/
theorem test_loadF3is7 :
    loadAfter 0x00017283 0 = some 0xDEADBEEF := by decide +kernel

/-- `RAM[0]` and `RAM[1]` after the store `w` of `x3 = 0xA1B2C3D4` with base `x2`, and the held value. -/
def storeAfter (w x2 : Word) : Option (Word × Word × Word) :=
  (nextOf (exec (decode w) (start 0 x2 0xA1B2C3D4 0 0x77 0x11223344 0x55667788 w))).map fun t =>
    (deviceWord t .ram 0, deviceWord t .ram 1, t.M.writebackValue.value)

/-- T2, T6, T17 (into ROM, discarded). -/
theorem test_sb :
    storeAfter 0x003100A3 0x20000000 = some (0x11D43344, 0x55667788, 0x77) ∧
    storeAfter 0x003103A3 0x20000000 = some (0x11223344, 0x556677D4, 0x77) ∧
    storeAfter 0xFE310FA3 0x20000000 = some (0x11223344, 0x55667788, 0x77) := by decide +kernel

/-- T7, T9. -/
theorem test_sh :
    storeAfter 0x00311023 0x20000000 = some (0xC3D43344, 0x55667788, 0x77) ∧
    storeAfter 0x00311323 0x20000000 = some (0x11223344, 0x5566C3D4, 0x77) := by decide +kernel

/-- T11 (misaligned), T18. -/
theorem test_sw :
    storeAfter 0x003122A3 0x20000000 = some (0x11223344, 0xA1B2C3D4, 0x77) ∧
    storeAfter 0x7E312FA3 0x1FFFF801 = some (0xA1B2C3D4, 0x55667788, 0x77) := by decide +kernel

/-- T14 (alias), T15 (ROM), T16 (unmapped). -/
theorem test_sw_map :
    storeAfter 0x00312023 0x20400000 = some (0xA1B2C3D4, 0x55667788, 0x77) ∧
    storeAfter 0x00312023 0x10000000 = some (0x11223344, 0x55667788, 0x77) ∧
    storeAfter 0x00312023 0x30000000 = some (0x11223344, 0x55667788, 0x77) := by decide +kernel

/-- T30 to T34. -/
theorem test_store_unhandled :
    storeAfter 0x00313023 0x20000000 = some (0x11223344, 0x55667788, 0x77) ∧
    storeAfter 0x00314023 0x20000000 = some (0x11223344, 0x55667788, 0x77) ∧
    storeAfter 0x00315023 0x20000000 = some (0x11223344, 0x55667788, 0x77) ∧
    storeAfter 0x00316023 0x20000000 = some (0x11223344, 0x55667788, 0x77) ∧
    storeAfter 0x00317023 0x20000000 = some (0x11223344, 0x55667788, 0x77) := by decide +kernel

/-- After the word `w` of no class: `pc`, `x1`, `x5`, the held value, `RAM[0]`. -/
def noClassAfter (w : Word) : Option (Word × Word × Word × Word × Word) :=
  (nextOf (exec (decode w) (start 0x11 0 0 0x55 0x77 0x11223344 0 w))).map fun t =>
    (t.F.pc.value, rfValue t 1, rfValue t 5, t.M.writebackValue.value, deviceWord t .ram 0)

/-- X1, X2. -/
theorem test_branch :
    noClassAfter 0x00000463 = some (0x10000004, 0x11, 0x55, 0x77, 0x11223344) ∧
    noClassAfter 0xFE000EE3 = some (0x10000004, 0x11, 0x55, 0x77, 0x11223344) := by decide +kernel

/-- X3. -/
theorem test_jal :
    noClassAfter 0x008000EF = some (0x10000004, 0x11, 0x55, 0x77, 0x11223344) := by decide +kernel

/-- X4, X5. -/
theorem test_jalr :
    noClassAfter 0x00008067 = some (0x10000004, 0x11, 0x55, 0x77, 0x11223344) ∧
    noClassAfter 0x000082E7 = some (0x10000004, 0x11, 0x55, 0x77, 0x11223344) := by decide +kernel

/-- X6. -/
theorem test_auipc :
    noClassAfter 0x00001297 = some (0x10000004, 0x11, 0x55, 0x77, 0x11223344) := by decide +kernel

/-- X7, X8. -/
theorem test_miscMem :
    noClassAfter 0x0FF0000F = some (0x10000004, 0x11, 0x55, 0x77, 0x11223344) ∧
    noClassAfter 0x0000100F = some (0x10000004, 0x11, 0x55, 0x77, 0x11223344) := by decide +kernel

/-- X9, X11, X13. -/
theorem test_system :
    noClassAfter 0x00000073 = some (0x10000004, 0x11, 0x55, 0x77, 0x11223344) ∧
    noClassAfter 0x30200073 = some (0x10000004, 0x11, 0x55, 0x77, 0x11223344) ∧
    noClassAfter 0x305292F3 = some (0x10000004, 0x11, 0x55, 0x77, 0x11223344) := by decide +kernel

/-- X15, X16, X17. -/
theorem test_unrecognized :
    noClassAfter 0xFFFFFFFF = some (0x10000004, 0x11, 0x55, 0x77, 0x11223344) ∧
    noClassAfter 0x00000000 = some (0x10000004, 0x11, 0x55, 0x77, 0x11223344) ∧
    noClassAfter 0x00000001 = some (0x10000004, 0x11, 0x55, 0x77, 0x11223344) := by decide +kernel

/-- R202's example through the step: fetched, decoded and run from ROM; and S8: five ticks give the same state. -/
theorem test_step :
    (nextOf (step (start 0x7FFFFFFF 1 0 0 0 0 0 0x402081B3))).map (fun t => (rfValue t 3, t.F.pc.value)) =
      some (0x7FFFFFFE, 0x10000004) ∧
    nextOf (step (start 0x7FFFFFFF 1 0 0 0 0 0 0x402081B3)) =
      some (runTicks 5 (start 0x7FFFFFFF 1 0 0 0 0 0 0x402081B3)) := by decide +kernel

/-- P7: a store is visible after its fourth tick, not after its third. -/
theorem test_ticks :
    deviceWord (runTicks 3 (start 0 0x20000000 0x55 0 0 0 0 0x00310023)) .ram 0 = 0 ∧
    deviceWord (runTicks 4 (start 0 0x20000000 0x55 0 0 0 0 0x00310023)) .ram 0 = 0x55000000 := by decide +kernel

/-- The Decode tick on E5, `sw x3, -4(x2)`: immediate, `rd` and flags. -/
theorem test_decode_tick :
    (fun t => (t.D.imm32.value, t.D.rd.value, t.D.funct3.value, t.D.isStore.value, t.D.isAluOp.value))
      (runTicks 2 (start 0 0 0 0 0 0 0 0xFE312E23)) = (0xFFFFFFFC, 28, 2, true, false) := by decide +kernel

/-- S12: the program, then the fill word; a byte of an instruction, most significant first. -/
theorem test_load :
    (nextOf (hostLoad [0xAAAAA0B7, 0xAAA08093] State.reset)).map (fun t =>
      (hostBusRead t 0x10000004 .word, hostBusRead t 0x10000008 .word, hostBusRead t 0x100FFFFC .word,
        hostBusRead t 0x10000000 .byte, hostBusRead t 0x10000003 .byte)) =
      some (0xAAA08093, 0xFFFFFFFF, 0xFFFFFFFF, 0xAA, 0xB7) := by decide +kernel

/-- S2: a byte, then a half-word, written into a word through the bus. -/
theorem test_bus_roundTrip :
    (fun s => (hostBusRead s 0x20000010 .word, hostBusRead s 0x20000011 .byte, hostBusRead s 0x20000012 .half))
      (hostBusWrite (hostBusWrite (hostBusWrite State.reset 0x20000010 0x11223344 .word) 0x20000011 0xAB .byte)
        0x20000012 0xBEEF .half) = (0x11ABBEEF, 0xAB, 0xBEEF) := by decide +kernel

/-- A launch with a preset register and one RAM preset (R344), and the refusal without `load` (R332). -/
theorem test_launch :
    (nextOf (launch
      { words := [0x00C5D6B3], registers := (Vector.replicate 32 0).set 11 0x80000000,
        ramWrites := [(0x20000001, 0xAB, .byte)], writebackValue := 0x77 })).map (fun t =>
      (rfValue t 11, hostBusRead t 0x20000000 .word, hostBusRead t 0x10000000 .word, t.M.writebackValue.value)) =
      some (0x80000000, 0x00AB0000, 0x00C5D6B3, 0x77) ∧
    nextOf (step State.reset) = none := by decide +kernel

/-- Writing the byte an unlisted address reads as removes the entry. -/
theorem test_memory_canonical :
    Memory.write 0 (Memory.write 0 [] 5 7) 3 1 = [(3, 1), (5, 7)] ∧
    Memory.write 0 [(3, 1), (5, 7)] 3 0 = [(5, 7)] ∧ Memory.wf .ram [(3, 1), (5, 7)] = true ∧
    Memory.wf .ram [(5, 7), (3, 1)] = false ∧ Memory.wf .ram [(3, 0)] = false ∧ Memory.wf .ram [(0x400000, 1)] = false := by
  decide

/-! ## A witness for the hypotheses of every statement that has hypotheses

`here` is a Fetch boundary of a loaded machine; `at2`, `at3`, `at4` are the states after its first ticks. -/

/-- `sw x3, -4(x2)` about to run, `x1` at an odd RAM address, `x2 = 0x20000004`. -/
def here : State := start 0x20000001 0x20000004 0xA1B2C3D4 0x55 0x77 0x11223344 0x55667788 0xFE312E23

theorem here_settled : Settled here := by decide +kernel
theorem here_wf : MemoriesWf here := by decide +kernel
theorem here_ready : here.romLoaded = true ∧ here.sel = .IF := ⟨rfl, rfl⟩
theorem here_inv : Inv here := by decide +kernel

/-- After the Fetch tick of the word `w`. -/
def fetchedWord (w : Word) : State := cycle (start 0 0 0 0 0 0 0 w)

/-- After the Execute tick of the word `w`. -/
def inMemory (w : Word) : State := cycle (runTicks 2 (start 0 0 0 0 0 0 0 w))

/-- What the MemoryAccess tick of the word `w` looks at: the exclusive classes, the selector, store, load, `funct3`. -/
def memoryView (w : Word) : Bool × Stage × Bool × Bool × BitVec 3 :=
  (decide (ClassesExclusive (inMemory w)), (inMemory w).sel, (inMemory w).E.isStore.value, (inMemory w).E.isLoad.value,
    (inMemory w).E.funct3.value)

theorem ticks_settled (n : Nat) : Settled (runTicks n here) := settled_runTicks n here_settled

theorem witness_DecodeOfEncode : (Instr.sra 31 31 31 0b1111111).wellFormed = true ∧ (Instr.unrecognized 0xFFFFFFFF).wellFormed = true := by decide

/-- Both values of bit 30 with `funct3` 5, and `funct3` 0 and 7. -/
theorem witness_RegisterFormSelection : 
    (0x00005033#32).extractLsb' 0 7 = 0b0110011#7 ∧ (0x40005033#32).extractLsb' 0 7 = 0b0110011#7 ∧
    (0x00000033#32).extractLsb' 0 7 = 0b0110011#7 ∧ (0xFFFFFFB3#32).extractLsb' 0 7 = 0b0110011#7 := by decide

/-- Both values of bit 30 with `funct3` 5, and `funct3` 0 and 7. -/
theorem witness_ImmediateFormSelection : 
    (0x00005013#32).extractLsb' 0 7 = 0b0010011#7 ∧ (0x40005013#32).extractLsb' 0 7 = 0b0010011#7 ∧
    (0x00000013#32).extractLsb' 0 7 = 0b0010011#7 ∧ (0xFFFFFF93#32).extractLsb' 0 7 = 0b0010011#7 := by decide

theorem witness_LoadStoreLuiSelection : 
    (0xFFFFFF83#32).extractLsb' 0 7 = 0b0000011#7 ∧ (0xFFFFFFA3#32).extractLsb' 0 7 = 0b0100011#7 ∧
    (0xFFFFFFB7#32).extractLsb' 0 7 = 0b0110111#7 := by decide

theorem witness_NoClassSelection : 
    (0xFFFFFFE3#32).extractLsb' 0 7 = 0b1100011#7 ∧ (0xFFFFFFEF#32).extractLsb' 0 7 = 0b1101111#7 ∧
    (0xFFFFFFE7#32).extractLsb' 0 7 = 0b1100111#7 ∧ (0xFFFFFF97#32).extractLsb' 0 7 = 0b0010111#7 ∧
    (0xFFFFFF8F#32).extractLsb' 0 7 = 0b0001111#7 ∧ (0xFFFFFFF3#32).extractLsb' 0 7 = 0b1110011#7 ∧
    (0xFFFFFFFF#32).extractLsb' 0 7 ∉ Opcode.named := by decide

theorem witness_RowSelection : (rowOf (.add 0 0 0 0)).1 ≠ 0#32 ∧ (rowOf (.system 0)).1 ≠ 0#32 := by decide

theorem witness_RegisterZero : Settled here ∧ (31#5 : Reg) ≠ 0#5 := ⟨here_settled, by decide⟩

/-- Each of the five values of the selector. -/
theorem witness_SelectorRotation : 
    here.sel = .IF ∧ (runTicks 1 here).sel = .DE ∧ (runTicks 2 here).sel = .EX ∧ (runTicks 3 here).sel = .MEM ∧
    (runTicks 4 here).sel = .WB := by decide +kernel

theorem witness_FetchTick : here.sel = .IF ∧ (runTicks 1 here).sel ≠ .IF ∧ Settled (runTicks 1 here) := 
  ⟨rfl, by decide +kernel, ticks_settled 1⟩

theorem witness_DecodeTick : Settled (runTicks 1 here) ∧ (runTicks 1 here).sel = .DE := ⟨ticks_settled 1, by decide +kernel⟩

/-- The fetched word is a store, an ALU word of either form, a load, LUI, the fill word. -/
theorem witness_DecodeTickImmediate : 
    (∀ w, Settled (fetchedWord w)) ∧ (fetchedWord 0xFE312E23).sel = .DE ∧
    (fetchedWord 0xFE312E23).F.inst.value = 0xFE312E23 ∧ (fetchedWord 0x002081B3).F.inst.value = 0x002081B3 ∧
    (fetchedWord 0xAAA08093).F.inst.value = 0xAAA08093 ∧ (fetchedWord 0xFFC12283).F.inst.value = 0xFFC12283 ∧
    (fetchedWord 0xAAAAA0B7).F.inst.value = 0xAAAAA0B7 ∧ (fetchedWord 0xFFFFFFFF).F.inst.value = 0xFFFFFFFF := ⟨fun w => settled_cycle _, by decide +kernel⟩

theorem witness_ExecuteTick : Settled (runTicks 2 here) ∧ (runTicks 2 here).sel = .EX := ⟨ticks_settled 2, by decide +kernel⟩

/-- An ALU word and LUI in the MemoryAccess tick. -/
theorem witness_MemoryTickPassThrough : 
    (∀ w, Settled (inMemory w)) ∧ (inMemory 0x002081B3).sel = .MEM ∧ ClassesExclusive (inMemory 0x002081B3) ∧
    (inMemory 0x002081B3).E.isAluOp.value = true ∧ (inMemory 0xAAAAA0B7).sel = .MEM ∧
    ClassesExclusive (inMemory 0xAAAAA0B7) ∧ (inMemory 0xAAAAA0B7).E.isLUI.value = true := ⟨fun w => settled_cycle _, by decide +kernel⟩

/-- Stores of `funct3` 0 to 3 and 7, loads of every `funct3`, and the fill word, which has no class. -/
theorem witness_MemoryTickAccess : 
    (∀ w, Settled (inMemory w)) ∧
    memoryView 0x00310023 = (true, .MEM, true, false, 0) ∧
    memoryView 0x00311023 = (true, .MEM, true, false, 1) ∧
    memoryView 0x00312023 = (true, .MEM, true, false, 2) ∧
    memoryView 0x00313023 = (true, .MEM, true, false, 3) ∧
    memoryView 0x00317023 = (true, .MEM, true, false, 7) ∧
    memoryView 0x00010283 = (true, .MEM, false, true, 0) ∧
    memoryView 0x00011283 = (true, .MEM, false, true, 1) ∧
    memoryView 0x00012283 = (true, .MEM, false, true, 2) ∧
    memoryView 0x00013283 = (true, .MEM, false, true, 3) ∧
    memoryView 0x00014283 = (true, .MEM, false, true, 4) ∧
    memoryView 0x00015283 = (true, .MEM, false, true, 5) ∧
    memoryView 0x00016283 = (true, .MEM, false, true, 6) ∧
    memoryView 0x00017283 = (true, .MEM, false, true, 7) ∧
    memoryView 0xFFFFFFFF = (true, .MEM, false, false, 7) ∧ (inMemory 0xFFFFFFFF).E.isLUI.value = false ∧
    (inMemory 0xFFFFFFFF).E.isAluOp.value = false := by
  refine ⟨fun w => settled_cycle _, ?_⟩
  and_intros <;> decide +kernel

/-- A writing class, a store, and a tick that is no WriteBack tick. -/
theorem witness_WriteBackTick : 
    Settled (runTicks 4 (start 0 0 0 0 0 0 0 0x002081B3)) ∧ (runTicks 4 (start 0 0 0 0 0 0 0 0x002081B3)).sel = .WB ∧
    (runTicks 4 (start 0 0 0 0 0 0 0 0x002081B3)).M.isAluOp.value = true ∧ Settled (runTicks 4 here) ∧
    (runTicks 4 here).sel = .WB ∧
    ((runTicks 4 here).M.isAluOp.value || (runTicks 4 here).M.isLoad.value || (runTicks 4 here).M.isLUI.value) = false ∧
    here.sel ≠ .WB := ⟨settled_cycle _, by decide +kernel, by decide +kernel, ticks_settled 4, by decide +kernel⟩

/-- The first and the last address of each range. -/
theorem witness_BusRouting : 
    (0x10000000#32).extractLsb' 28 4 = 1#4 ∧ (0x1FFFFFFF#32).extractLsb' 28 4 = 1#4 ∧
    (0x20000000#32).extractLsb' 28 4 = 2#4 ∧ (0x2FFFFFFF#32).extractLsb' 28 4 = 2#4 ∧
    ((0x0FFFFFFF#32).extractLsb' 28 4 ≠ 1#4 ∧ (0x0FFFFFFF#32).extractLsb' 28 4 ≠ 2#4) ∧
    ((0x30000000#32).extractLsb' 28 4 ≠ 1#4 ∧ (0x30000000#32).extractLsb' 28 4 ≠ 2#4) := by decide

theorem witness_DeviceWrites : MemoriesWf here ∧ (0xFFFFFFC#28).toNat % 4 % 2 = 0 ∧ (0xFFFFFFE#28).toNat % 4 % 2 = 0 := ⟨here_wf, by decide⟩

theorem witness_BigEndianView : (0xFFFFFFFC#32).extractLsb' 0 2 = 0#2 ∧ (0x20000000#32).extractLsb' 0 2 = 0#2 := by decide

/-- S11: the first and the last alias. -/
theorem witness_Aliasing : 
    (0x10000000#32).extractLsb' 28 4 = 1#4 ∧ (0x1FF00000#32).extractLsb' 28 4 = 1#4 ∧
    (0x10000000#32).extractLsb' 0 20 = (0x1FF00000#32).extractLsb' 0 20 ∧ (0x20000000#32).extractLsb' 28 4 = 2#4 ∧
    (0x2FC00000#32).extractLsb' 28 4 = 2#4 ∧ (0x20000000#32).extractLsb' 0 22 = (0x2FC00000#32).extractLsb' 0 22 := by decide

theorem witness_StoreThenLoad : 
    MemoriesWf here ∧ (0x2FFFFFFE#32).extractLsb' 28 4 = 2#4 ∧ (0x2FFFFFFE#32).getLsbD 0 = false ∧
    ramByteAt 0x2FFFFFFF#32 ≠ ramByteAt 0x2FFFFFFE#32 ∧ ramByteAt 0x2FFFFFFD#32 ≠ ramByteAt 0x2FFFFFFE#32 ∧
    ramByteAt 0x2FFFFFFD#32 ≠ ramByteAt (0x2FFFFFFE#32 + 1#32) ∧
    ramWordAt 0x20000000#32 ≠ ramWordAt 0x2FFFFFFE#32 := ⟨here_wf, by decide⟩

/-- The longest sequence that fits and the shortest that does not. -/
theorem witness_RomAfterLoad : 
    State.reset.romLoaded = false ∧ here.romLoaded = true ∧ (List.replicate 262144 (0#32)).length ≤ 262144 ∧
    262144 < (List.replicate 262145 (0#32)).length := by
  refine ⟨rfl, rfl, ?_, ?_⟩
  · rw [List.length_replicate]
  · rw [List.length_replicate]; decide

theorem witness_RomConstant : (nextOf (step here)).isSome = true := by decide +kernel

theorem witness_LaunchNeedsLoad : State.reset.romLoaded = false ∧ here.romLoaded = true := ⟨rfl, rfl⟩

/-- The last word of each device. -/
theorem witness_ResetState : 1048575 < 1048576 ∧ 262143 < 262144 := by decide

theorem witness_LaunchState : ([0xFFFFFFFF#32] : List Word).length ≤ 262144 ∧ 262143 < 262144 := by decide

theorem witness_StepKeepsInvariant : Inv here ∧ (nextOf (step here)).isSome = true := ⟨here_inv, by decide +kernel⟩

theorem witness_TickKeepsInvariant : Inv here := here_inv

theorem witness_StepRunsDecoded : 
    here.romLoaded = true ∧ here.sel = .IF ∧ decode (busRead here here.F.pc.value .word) = .sw 2 3 0xFFC := ⟨rfl, rfl, by decide +kernel⟩

theorem witness_FetchedBytesDecode : PcAligned here := by decide

theorem witness_PlacedWordRuns : MemoriesWf here ∧ MemoriesWf State.reset := ⟨here_wf, by decide⟩

theorem witness_StepIsFiveTicks : here.romLoaded = true ∧ here.sel = .IF := here_ready

theorem witness_RunsForever : here.romLoaded = true ∧ here.sel = .IF := here_ready

theorem witness_MidInstruction : Settled here ∧ here.sel = .IF ∧ here.romLoaded = true := ⟨here_settled, rfl, rfl⟩

theorem witness_AddSub : Settled here ∧ (0b0000000#7).getLsbD 5 = false ∧ (0b0100000#7).getLsbD 5 = true := ⟨here_settled, by decide⟩

theorem witness_RegisterShifts : Settled here ∧ (0b1011111#7).getLsbD 5 = false ∧ (0b1111111#7).getLsbD 5 = true := ⟨here_settled, by decide⟩

theorem witness_RegisterCompareLogic : Settled here := here_settled

theorem witness_ImmediateArithmetic : Settled here := here_settled

theorem witness_ImmediateShifts : Settled here ∧ (0b0000000#7).getLsbD 5 = false ∧ (0b0100000#7).getLsbD 5 = true := ⟨here_settled, by decide⟩

theorem witness_LoadUpperImmediate : Settled here ∧ (0xFFFFFFB7#32).extractLsb' 0 7 = 0b0110111#7 := ⟨here_settled, by decide⟩

theorem witness_ByteLoads : Settled here := here_settled

/-- `lh x5, 2(x2)`. -/
theorem witness_HalfWordLoads : Settled here ∧ (operand here 2#5 + BitVec.signExtend 32 (2#12)).getLsbD 0 = false := ⟨here_settled, by decide +kernel⟩

/-- `lh x5, 0(x1)` in RAM, and `lh x5, -1(x0)`, which nothing answers. -/
theorem witness_HalfWordLoadsOdd : 
    Settled here ∧ (operand here 1#5 + BitVec.signExtend 32 (0#12)).getLsbD 0 = true ∧
    route (operand here 1#5 + BitVec.signExtend 32 (0#12)) = some .ram ∧
    (operand here 0#5 + BitVec.signExtend 32 (0xFFF#12)).getLsbD 0 = true ∧
    route (operand here 0#5 + BitVec.signExtend 32 (0xFFF#12)) = none := ⟨here_settled, by decide +kernel⟩

theorem witness_WordLoad : Settled here := here_settled

theorem witness_RemainingLoads : Settled here ∧ (nextOf (exec (.sw 2#5 3#5 0#12) here)).isSome = true := ⟨here_settled, by decide +kernel⟩

/-- In RAM, and with base `x0` outside it. -/
theorem witness_ByteStore : 
    Settled here ∧ MemoriesWf here ∧ (ramByteAt (effectiveAddress here 2#5 3#12)).isSome = true ∧
    ramByteAt (effectiveAddress here 0#5 3#12) = none := ⟨here_settled, here_wf, by decide +kernel⟩

theorem witness_HalfWordStore : 
    Settled here ∧ MemoriesWf here ∧ (effectiveAddress here 2#5 2#12).getLsbD 0 = false ∧
    (ramByteAt (effectiveAddress here 2#5 2#12)).isSome = true := ⟨here_settled, here_wf, by decide +kernel⟩

theorem witness_HalfWordStoreOdd : 
    Settled here ∧ MemoriesWf here ∧ (effectiveAddress here 1#5 0#12).getLsbD 0 = true ∧
    (ramWordAt (effectiveAddress here 1#5 0#12)).isSome = true ∧
    ramWordAt 0x20000003#32 = ramWordAt (effectiveAddress here 1#5 0#12) ∧
    ramWordAt 0x20000004#32 ≠ ramWordAt (effectiveAddress here 1#5 0#12) := ⟨here_settled, here_wf, by decide +kernel⟩

theorem witness_WordStore : 
    Settled here ∧ MemoriesWf here ∧ (ramWordAt (effectiveAddress here 2#5 0xFFC#12)).isSome = true := ⟨here_settled, here_wf, by decide +kernel⟩

theorem witness_UnhandledStores : Settled here := here_settled

theorem witness_NoClassIsNoOp : Settled here := here_settled

end Sys2Proof.Tests
end

section
/-! PROOFS. 20_memory.md sections 1, 2, 4 and 6: who answers a bus address, what a device read takes from the word it names,
and that a word access drops the two low address bits. -/

namespace Sys2Proof.Machine

open Sys2Proof

/-! ## Who answers an address (R61) -/

theorem route_eq_rom_iff (a : Word) : route a = some .rom ↔ a.extractLsb' 28 4 = 1#4 := by
  unfold route
  split_ifs <;> simp_all

theorem route_eq_ram_iff (a : Word) : route a = some .ram ↔ a.extractLsb' 28 4 = 2#4 := by
  unfold route
  split_ifs <;> simp_all

theorem route_eq_none_iff (a : Word) :
    route a = none ↔ a.extractLsb' 28 4 ≠ 1#4 ∧ a.extractLsb' 28 4 ≠ 2#4 := by
  unfold route
  split_ifs <;> simp_all

/-- A bus read of a mapped address is the device's read at the low 28 bits (R61). -/
theorem busRead_of_route {s : State} {a : Word} {d : Device} (wd : Width) (h : route a = some d) :
    busRead s a wd = devRead s d (localOf a) wd := by
  unfold busRead
  rw [h]

/-- A bus read of any other address is 0 (R73). -/
theorem busRead_of_route_none {s : State} {a : Word} (wd : Width) (h : route a = none) : busRead s a wd = 0#32 := by
  unfold busRead
  rw [h]

/-- A bus write to RAM is RAM's write at the low 28 bits (R62). -/
theorem busWrite_eq_devWriteRam {s : State} {a : Word} (v : Word) (wd : Width) (h : route a = some .ram) :
    busWrite s a v wd = devWriteRam s (localOf a) v wd :=
  busWrite_ram v wd h

/-- Settles O22: each clause is the bus law of the device that the top nibble selects. -/
theorem busRouting : Obligations.BusRouting := by
  intro s a v wd top loc
  refine ⟨fun h => ?_, fun h => ?_, fun h1 h2 => ?_, fun h => ?_, fun h => ?_⟩
  · exact busRead_of_route wd ((route_eq_rom_iff a).2 h)
  · exact busRead_of_route wd ((route_eq_ram_iff a).2 h)
  · exact busRead_of_route_none wd ((route_eq_none_iff a).2 ⟨h1, h2⟩)
  · exact busWrite_eq_devWriteRam v wd ((route_eq_ram_iff a).2 h)
  · exact busWrite_not_ram v wd (mt (route_eq_ram_iff a).1 h)

/-! ## What a device-local address names, and what a read takes from it (R63, R64, R66) -/

/-- ROM's word index is bits 19:2 of the local address. -/
theorem wordIndex_rom (loc : BitVec 28) : wordIndex .rom loc = (loc.extractLsb' 2 18).toNat := by
  simp [wordIndex, Config.deviceWords, Nat.shiftRight_eq_div_pow]

/-- RAM's word index is bits 21:2 of the local address. -/
theorem wordIndex_ram (loc : BitVec 28) : wordIndex .ram loc = (loc.extractLsb' 2 20).toNat := by
  simp [wordIndex, Config.deviceWords, Nat.shiftRight_eq_div_pow]

theorem toNat_byteOffset (loc : BitVec 28) : (byteOffset loc).toNat = loc.toNat % 4 := by
  simp [byteOffset]

/-- A byte slice is the big-endian digit at the offset: the word shifted down by the bytes below it, mod 256. -/
theorem toNat_sliceRead_byte (d : Device) (o : BitVec 2) (w : Word) :
    (sliceRead d o .byte w).toNat = w.toNat / 2 ^ (8 * (3 - o.toNat)) % 256 := by
  have low8 (n : Nat) : n &&& 255 = n % 256 := Nat.and_two_pow_sub_one_eq_mod n 8
  simp only [sliceRead, BitVec.toNat_and, BitVec.toNat_ushiftRight, Nat.shiftRight_eq_div_pow]
  exact low8 _

/-- A word read is the containing word, whatever the offset (R66). -/
theorem devRead_word (s : State) (d : Device) (loc : BitVec 28) :
    devRead s d loc .word = deviceWord s d (wordIndex d loc) := rfl

/-- A word write replaces the containing word, whatever the offset (R69). -/
theorem devWriteRam_word (s : State) (loc : BitVec 28) (v : Word) :
    devWriteRam s loc v .word = setRamWord s (wordIndex .ram loc) v := rfl

/-- Settles O23: the index and the offset are the named bits, and the two slices are read off the containing word. -/
theorem deviceReads : Obligations.DeviceReads := by
  intro s d loc w o
  refine ⟨wordIndex_rom loc, wordIndex_ram loc, toNat_byteOffset loc, ?_, devRead_word s d loc⟩
  calc (devRead s d loc .byte).toNat
      = w.toNat / 2 ^ (8 * (3 - (byteOffset loc).toNat)) % 256 := toNat_sliceRead_byte d (byteOffset loc) w
    _ = w.toNat / 2 ^ (8 * (3 - o)) % 256 := by rw [toNat_byteOffset]

/-! ## The two low address bits (R74) -/

/-- Clearing the two low bits keeps the bits above them. -/
theorem toNat_and_alignMask_div_four (a : Word) : (a &&& 0xFFFFFFFC#32).toNat / 4 = a.toNat / 4 := by
  have hmask : (0xFFFFFFFC#32).extractLsb' 2 30 = BitVec.allOnes 30 := by decide
  have hbits : (a &&& 0xFFFFFFFC#32).extractLsb' 2 30 = a.extractLsb' 2 30 := by
    rw [BitVec.extractLsb'_and, hmask, BitVec.and_allOnes]
  have hnat := congrArg BitVec.toNat hbits
  simp only [BitVec.extractLsb'_toNat, Nat.shiftRight_eq_div_pow] at hnat
  omega

theorem route_and_alignMask (a : Word) : route (a &&& 0xFFFFFFFC#32) = route a := by
  have htop : (a &&& 0xFFFFFFFC#32).extractLsb' 28 4 = a.extractLsb' 28 4 := by
    apply BitVec.eq_of_toNat_eq
    have := toNat_and_alignMask_div_four a
    simp only [BitVec.extractLsb'_toNat, Nat.shiftRight_eq_div_pow]
    omega
  unfold route
  rw [htop]

theorem wordIndex_localOf_and_alignMask (d : Device) (a : Word) :
    wordIndex d (localOf (a &&& 0xFFFFFFFC#32)) = wordIndex d (localOf a) := by
  have hword : (localOf (a &&& 0xFFFFFFFC#32)).toNat / 4 = (localOf a).toNat / 4 := by
    have := toNat_and_alignMask_div_four a
    simp only [localOf, BitVec.extractLsb'_toNat, Nat.shiftRight_zero]
    omega
  unfold wordIndex
  rw [hword]

/-- A word read depends on the address through the device and the word index alone. -/
theorem busRead_word_congr (s : State) {a b : Word} (hr : route a = route b)
    (hi : ∀ d, wordIndex d (localOf a) = wordIndex d (localOf b)) : busRead s a .word = busRead s b .word := by
  unfold busRead
  rw [hr]
  simp only [devRead_word, hi]

/-- A word write depends on the address through the device and the word index alone. -/
theorem busWrite_word_congr (s : State) (v : Word) {a b : Word} (hr : route a = route b)
    (hi : ∀ d, wordIndex d (localOf a) = wordIndex d (localOf b)) : busWrite s a v .word = busWrite s b v .word := by
  unfold busWrite
  rw [hr]
  simp only [devWriteRam_word, hi]

/-- Settles O26: clearing the two low bits keeps the device and the word index, and a word access uses nothing else of
the address. -/
theorem wordAlignment : Obligations.WordAlignment := fun s a v =>
  have hr : route a = route (a &&& 0xFFFFFFFC#32) := (route_and_alignMask a).symm
  have hi (d : Device) : wordIndex d (localOf a) = wordIndex d (localOf (a &&& 0xFFFFFFFC#32)) :=
    (wordIndex_localOf_and_alignMask d a).symm
  ⟨busRead_word_congr s hr hi, busWrite_word_congr s v hr hi⟩

end Sys2Proof.Machine
end

section
/-! PROOFS. 30_encoding.md sections 2 to 4: the class flags, which row the opcode and `funct3` select, and the immediates and
shift amounts as numbers. -/

namespace Sys2Proof.Machine

open Sys2Proof

/-! ## The immediates and the shift amounts, as numbers (R104, R106, R107) -/

theorem toNat_fieldI (w : Word) : (fieldI w).toNat = w.toNat / 2 ^ 20 := by
  have := w.isLt
  simp only [fieldI, BitVec.extractLsb'_toNat, Nat.shiftRight_eq_div_pow]
  omega

theorem toNat_fieldU (w : Word) : (fieldU w).toNat = w.toNat / 2 ^ 12 := by
  have := w.isLt
  simp only [fieldU, BitVec.extractLsb'_toNat, Nat.shiftRight_eq_div_pow]
  omega

theorem toNat_shamtOf (w : Word) : (shamtOf w).toNat = w.toNat / 2 ^ 20 % 32 := by
  simp [shamtOf, rs2Of, Nat.shiftRight_eq_div_pow]

/-- Sign extension keeps the signed reading. -/
theorem toInt_sext12 (v : BitVec 12) : (sext12 v).toInt = v.toInt :=
  BitVec.toInt_signExtend_of_le (by decide)

theorem toNat_upperImm (v : BitVec 20) : (upperImm v).toNat = v.toNat * 2 ^ 12 := by
  rw [upperImm, BitVec.toNat_append, BitVec.toNat_zero, Nat.or_zero, Nat.shiftLeft_eq]

theorem toInt_immI (w : Word) :
    (immI w).toInt = if w.toNat / 2 ^ 20 < 2048 then (w.toNat / 2 ^ 20 : Int) else (w.toNat / 2 ^ 20 : Int) - 4096 := by
  rw [immI, toInt_sext12, BitVec.toInt_eq_toNat_cond, toNat_fieldI]
  split_ifs <;> omega

theorem toNat_immU (w : Word) : (immU w).toNat = w.toNat / 2 ^ 12 * 2 ^ 12 := by
  rw [immU_eq_upperImm, toNat_upperImm, toNat_fieldU]

theorem shiftAmount_eq_mod (b : Word) : shiftAmount b = b.toNat % 32 :=
  Nat.and_two_pow_sub_one_eq_mod b.toNat 5

/-- Settles O9: each immediate is its field extended, and each shift amount a remainder modulo 32. -/
theorem immediateValues : Obligations.ImmediateValues := fun w b =>
  ⟨toInt_immI w, toNat_immU w, toNat_shamtOf w, shiftAmount_eq_mod b⟩

/-! ## The row that the opcode and `funct3` select (R110 to R112) -/

section ByOpcode

variable {w : Word}

theorem decode_of_aluReg (h : opcodeOf w = Opcode.aluReg) : decode w = decodeAluReg w := by
  unfold decode; rw [h]; rfl

theorem decode_of_aluImm (h : opcodeOf w = Opcode.aluImm) : decode w = decodeAluImm w := by
  unfold decode; rw [h]; rfl

theorem decode_of_load (h : opcodeOf w = Opcode.load) : decode w = decodeLoad w := by
  unfold decode; rw [h]; rfl

theorem decode_of_store (h : opcodeOf w = Opcode.store) : decode w = decodeStore w := by
  unfold decode; rw [h]; rfl

theorem decode_of_lui (h : opcodeOf w = Opcode.lui) : decode w = .lui (rdOf w) (fieldU w) := by
  unfold decode; rw [h]; rfl

end ByOpcode

/-- Bit 5 of instruction bits 31:25 is instruction bit 30. -/
theorem bit30_funct7Of (w : Word) : bit30 (funct7Of w) = w.getLsbD 30 := by
  simp only [bit30, funct7Of, BitVec.getLsbD_extractLsb']; rfl

/-- Settles O3: under this opcode `decode` is `decodeAluReg`, which reads bit 30 in the rows of `funct3` 0 and 5 alone. -/
theorem registerFormSelection : Obligations.RegisterFormSelection := by
  intro w hop f3 rd rs1 rs2 f7
  have hf3 : funct3Of w = f3 := rfl
  rw [decode_of_aluReg hop]
  unfold decodeAluReg
  rw [bit30_funct7Of, hf3]
  refine ⟨fun h3 h30 => ?add, fun h3 h30 => ?sub, fun h3 => ?sll, fun h3 => ?slt, fun h3 => ?sltu, fun h3 => ?xor,
    fun h3 h30 => ?srl, fun h3 h30 => ?sra, fun h3 => ?or, fun h3 => ?and⟩
  case add | sub | srl | sra => rw [h3, h30]; rfl
  case sll | slt | sltu | xor | or | and => rw [h3]; rfl

/-- Settles O4: under this opcode `decode` is `decodeAluImm`, which reads bit 30 in the row of `funct3` 5 alone. -/
theorem immediateFormSelection : Obligations.ImmediateFormSelection := by
  intro w hop f3 rd rs1 imm shamt upper
  have hf3 : funct3Of w = f3 := rfl
  rw [decode_of_aluImm hop]
  unfold decodeAluImm
  rw [bit30_funct7Of, hf3]
  refine ⟨fun h3 => ?addi, fun h3 => ?slli, fun h3 => ?slti, fun h3 => ?sltiu, fun h3 => ?xori, fun h3 h30 => ?srli,
    fun h3 h30 => ?srai, fun h3 => ?ori, fun h3 => ?andi⟩
  case srli | srai => rw [h3, h30]; rfl
  case addi | slli | slti | sltiu | xori | ori | andi => rw [h3]; rfl

/-- Settles O5: under each opcode `decode` is the decoder of that class, which reads `funct3` alone; the store immediate
left open is `fieldS`. -/
theorem loadStoreLuiSelection : Obligations.LoadStoreLuiSelection := by
  intro w f3 rd rs1 rs2 imm
  have hf3 : funct3Of w = f3 := rfl
  refine ⟨fun hop => ?load, fun hop => ⟨fieldS w, ?store⟩, fun hop => decode_of_lui hop⟩
  case load =>
    rw [decode_of_load hop]
    unfold decodeLoad
    rw [hf3]
    refine ⟨?_, ?_, ?_, ?_, ?_, ?_, ?_, ?_⟩ <;> (intro h3; rw [h3]; rfl)
  case store =>
    rw [decode_of_store hop]
    unfold decodeStore
    rw [hf3]
    refine ⟨?_, ?_, ?_, ?_, ?_, ?_, ?_, ?_⟩ <;> (intro h3; rw [h3]; rfl)

/-! ## The class flags (R108) -/

theorem isAluOp_iff_masked (op : BitVec 7) : isAluOp op = true ↔ op &&& 0b1011111#7 = 0b0010011#7 := beq_iff_eq

/-- The mask conflates exactly the two ALU opcodes. -/
theorem isAluOp_iff : ∀ op : BitVec 7, isAluOp op = true ↔ op = 0b0010011#7 ∨ op = 0b0110011#7 := by decide

theorem isStore_iff (op : BitVec 7) : isStore op = true ↔ op = 0b0100011#7 := beq_iff_eq

theorem isLoad_iff (op : BitVec 7) : isLoad op = true ↔ op = 0b0000011#7 := beq_iff_eq

theorem isLUI_iff (op : BitVec 7) : isLUI op = true ↔ op = 0b0110111#7 := beq_iff_eq

/-- An opcode has one class, and each flag compares it with another. -/
theorem atMostOne_classFlags (op : BitVec 7) : atMostOne (isAluOp op) (isStore op) (isLoad op) (isLUI op) = true := by
  obtain ⟨halu, hstore, hload, hlui⟩ := classOf_flags op
  rw [← halu, ← hstore, ← hload, ← hlui]
  cases classOf op <;> rfl

/-- Settles O10: the comparisons, and the exclusion from `classOf_flags`. -/
theorem classFlags : Obligations.ClassFlags := fun op =>
  ⟨isAluOp_iff_masked op, isAluOp_iff op, isStore_iff op, isLoad_iff op, isLUI_iff op, atMostOne_classFlags op⟩

end Sys2Proof.Machine
end

section
/-! PROOFS. 40_pipeline_stages.md sections 1 to 7: the clocked cell, the selector, and what one tick latches, stage by
stage. -/

namespace Sys2Proof.Machine

open Sys2Proof

/-! ## The clocked cell (R131) -/

/-- Only the last `set` before a commit counts. -/
theorem ClockedCell.commit_foldl_set {α : Type} (c : ClockedCell α) (vs : List α) (v : α) :
    ((vs ++ [v]).foldl ClockedCell.set c).commit = .init v := by
  rw [List.foldl_append]
  exact ClockedCell.commit_set (vs.foldl ClockedCell.set c) v

/-- Settles O11: the operations by definition, the last-set law from `commit_foldl_set`. -/
theorem clockedCellLaws : Obligations.ClockedCellLaws := fun c v vs =>
  ⟨rfl, rfl, rfl, rfl, rfl, congrArg ClockedCell.value (c.commit_foldl_set vs v), c.commit_commit⟩

/-! ## One stage works per tick (R134 to R136) -/

section Compute

variable {s : State}

theorem fetchCompute_of_ne (h : s.sel ≠ .IF) : fetchCompute s = s := if_neg h
theorem decodeCompute_of_ne (h : s.sel ≠ .DE) : decodeCompute s = s := if_neg h
theorem executeCompute_of_ne (h : s.sel ≠ .EX) : executeCompute s = s := if_neg h
theorem memoryCompute_of_ne (h : s.sel ≠ .MEM) : memoryCompute s = s := if_neg h
theorem writeBackCompute_of_ne (h : s.sel ≠ .WB) : writeBackCompute s = s := if_neg h

end Compute

@[simp] theorem storeArm_sel (s : State) : (storeArm s).sel = s.sel := by rw [storeArm_eq]
@[simp] theorem storeArm_F (s : State) : (storeArm s).F = s.F := by rw [storeArm_eq]
@[simp] theorem storeArm_RF (s : State) : (storeArm s).RF = s.RF := by rw [storeArm_eq]

@[simp] theorem fetchCompute_sel (s : State) : (fetchCompute s).sel = s.sel := by
  unfold fetchCompute; split <;> rfl
@[simp] theorem decodeCompute_sel (s : State) : (decodeCompute s).sel = s.sel := by
  unfold decodeCompute; split <;> rfl
@[simp] theorem executeCompute_sel (s : State) : (executeCompute s).sel = s.sel := by
  unfold executeCompute; split <;> rfl
@[simp] theorem memoryCompute_sel (s : State) : (memoryCompute s).sel = s.sel := by
  unfold memoryCompute; split_ifs <;> simp
@[simp] theorem writeBackCompute_sel (s : State) : (writeBackCompute s).sel = s.sel := by
  unfold writeBackCompute; split_ifs <;> rfl

/-- The compute of the stage the selector names. -/
def stageCompute : Stage → State → State
  | .IF => fetchCompute
  | .DE => decodeCompute
  | .EX => executeCompute
  | .MEM => memoryCompute
  | .WB => writeBackCompute

/-- The compute phase is the compute of the stage the selector names: the other four find a foreign selector. -/
theorem computePhase_eq_stageCompute (s : State) : computePhase s = stageCompute s.sel s := by
  unfold computePhase
  cases h : s.sel <;>
    simp [stageCompute, h, fetchCompute_of_ne, decodeCompute_of_ne, executeCompute_of_ne, memoryCompute_of_ne,
      writeBackCompute_of_ne]

@[simp] theorem stageCompute_sel (x : Stage) (s : State) : (stageCompute x s).sel = s.sel := by
  cases x <;> simp [stageCompute]

/-- One tick of any state: the named stage computes, every cell commits, the selector moves on. -/
theorem cycle_eq (s : State) :
    cycle s = { commitPhase (stageCompute s.sel s) with sel := nextStage s.sel } := by
  simp only [cycle, computePhase_eq_stageCompute, commitPhase_sel, stageCompute_sel]

@[simp] theorem cycle_sel (s : State) : (cycle s).sel = nextStage s.sel := by rw [cycle_eq]

theorem sel_runTicks_five (s : State) : (runTicks 5 s).sel = s.sel := by
  simp only [runTicks, cycle_sel]
  cases s.sel <;> rfl

/-- Settles O13: the selector moves by `nextStage` at every tick, and each compute opens with the test of the selector. -/
theorem selectorRotation : Obligations.SelectorRotation := by
  intro s
  have rotates {x y : Stage} (hxy : nextStage x = y) (h : s.sel = x) : (cycle s).sel = y := by rw [cycle_sel, h, hxy]
  exact ⟨rotates rfl, rotates rfl, rotates rfl, rotates rfl, rotates rfl, sel_runTicks_five s, fetchCompute_of_ne,
    decodeCompute_of_ne, executeCompute_of_ne, memoryCompute_of_ne, writeBackCompute_of_ne⟩

/-! ## What the computes leave alone -/

/-- Only the Fetch stage sets Fetch cells. -/
theorem stageCompute_F {x : Stage} (hx : x ≠ .IF) (s : State) : (stageCompute x s).F = s.F := by
  cases x with
  | IF => contradiction
  | DE => simp only [stageCompute, decodeCompute]; split <;> rfl
  | EX => simp only [stageCompute, executeCompute]; split <;> rfl
  | MEM => simp only [stageCompute, memoryCompute]; split_ifs <;> simp
  | WB => simp only [stageCompute, writeBackCompute]; split_ifs <;> rfl

/-- Only the WriteBack stage sets registers. -/
theorem stageCompute_RF {x : Stage} (hx : x ≠ .WB) (s : State) : (stageCompute x s).RF = s.RF := by
  cases x with
  | IF => simp only [stageCompute, fetchCompute]; split <;> rfl
  | DE => simp only [stageCompute, decodeCompute]; split <;> rfl
  | EX => simp only [stageCompute, executeCompute]; split <;> rfl
  | MEM => simp only [stageCompute, memoryCompute]; split_ifs <;> simp
  | WB => contradiction

section Holds

variable {s : State} (hs : Settled s)

include hs

/-- The Fetch cells hold in every tick but the Fetch tick (R141). -/
theorem cycle_F_of_ne (h : s.sel ≠ .IF) : (cycle s).F = s.F := by
  rw [cycle_eq, commitPhase_F, stageCompute_F h, hs.F]

/-- The registers hold in every tick but the WriteBack tick. -/
theorem cycle_RF_of_ne (h : s.sel ≠ .WB) : (cycle s).RF = s.RF := by
  rw [cycle_eq, commitPhase_RF, stageCompute_RF h, hs.RF]

end Holds

/-! ## Fetch (R140, R141) -/

/-- Settles O14: `cycle_fetch` names both cells, and no other stage sets them. -/
theorem fetchTick : Obligations.FetchTick := by
  intro s
  refine ⟨fun h => ?_, fun h hs => cycle_F_of_ne hs h⟩
  rw [cycle_fetch h]
  exact ⟨rfl, rfl⟩

/-! ## Decode (R145 to R147) -/

/-- Settles O15: the Decode tick latches what `latchDecode` lists, with the class of the opcode, and the flags of a class
are those of the opcode (`classOf_flags`). -/
theorem decodeTick : Obligations.DecodeTick := by
  intro s hs h w op rs1 rs2 t
  have ht : t = _ := cycle_decode hs h
  obtain ⟨halu, hstore, hload, hlui⟩ := classOf_flags op
  rw [ht]
  exact ⟨rfl, rfl, rfl, rfl, rfl, rfl, rfl, rfl, halu, hstore, hload, hlui⟩

/-! ## The ALU (R151) -/

theorem boolWord_decide (p : Prop) [Decidable p] : boolWord (decide p) = if p then 1#32 else 0#32 := by
  simp [boolWord]

theorem boolWord_slt (a b : Word) : boolWord (a.slt b) = if a.toInt < b.toInt then 1#32 else 0#32 :=
  boolWord_decide _

theorem boolWord_ult (a b : Word) : boolWord (a.ult b) = if a.toNat < b.toNat then 1#32 else 0#32 :=
  boolWord_decide _

theorem sub_eq_ofInt (a b : Word) : a - b = BitVec.ofInt 32 ((a.toNat : Int) - b.toNat) := by
  bv_omega

/-- A left shift multiplies by a power of two. -/
theorem shiftLeft_eq_ofNat (a : Word) (n : Nat) : a <<< n = BitVec.ofNat 32 (a.toNat * 2 ^ n) := by
  apply BitVec.eq_of_toNat_eq
  rw [BitVec.toNat_shiftLeft, BitVec.toNat_ofNat, Nat.shiftLeft_eq]

/-- A logical right shift divides the unsigned reading. -/
theorem ushiftRight_eq_ofNat (a : Word) (n : Nat) : a >>> n = BitVec.ofNat 32 (a.toNat / 2 ^ n) := by
  rw [← Nat.shiftRight_eq_div_pow, ← BitVec.toNat_ushiftRight, BitVec.ofNat_toNat, BitVec.setWidth_eq]

/-- An arithmetic right shift divides the signed reading, rounding down. -/
theorem sshiftRight_eq_ofInt (a : Word) (n : Nat) : a.sshiftRight n = BitVec.ofInt 32 (a.toInt / 2 ^ n) := by
  have hdiv : a.toInt / 2 ^ n = (a.sshiftRight n).toInt := by
    rw [BitVec.toInt_sshiftRight, Int.shiftRight_eq_div_pow, Nat.cast_pow, Nat.cast_ofNat]
  rw [hdiv, BitVec.ofInt_toInt]

/-- Settles O18: each cell of the table is one operation of `BitVec`, and the lemmas above are its arithmetic. -/
theorem aluTable : Obligations.AluTable := by
  intro alt a b immA shamt n
  have hn : shiftAmount b = n := shiftAmount_eq_mod b
  rw [← hn]
  exact ⟨BitVec.add_def a b, sub_eq_ofInt a b, BitVec.add_def a immA, shiftLeft_eq_ofNat a _, shiftLeft_eq_ofNat a _,
    boolWord_slt a b, boolWord_slt a immA, boolWord_ult a b, boolWord_ult a immA, rfl, rfl, ushiftRight_eq_ofNat a _,
    sshiftRight_eq_ofInt a _, ushiftRight_eq_ofNat a _, rfl, rfl, rfl, rfl⟩

/-! ## MemoryAccess (R158, R159, R161) -/

/-- A set flag excludes the other three. -/
theorem atMostOne_true_left {b c d : Bool} (h : atMostOne true b c d = true) : b = false ∧ c = false ∧ d = false := by
  revert b c d; decide

theorem atMostOne_true_right {a b c : Bool} (h : atMostOne a b c true = true) : a = false ∧ b = false ∧ c = false := by
  revert a b c; decide

/-- What MemoryAccess passes through where no arm touches the bus: LUI's immediate, an ALU operation's result. -/
theorem memoryResult_of_isLUI {s : State} (hst : s.E.isStore.value = false) (hld : s.E.isLoad.value = false)
    (h : s.E.isLUI.value = true) : memoryResult s = some s.E.imm32.value := by
  simp [memoryResult, hst, hld, h]

theorem memoryResult_of_isAluOp {s : State} (hst : s.E.isStore.value = false) (hld : s.E.isLoad.value = false)
    (hlui : s.E.isLUI.value = false) (h : s.E.isAluOp.value = true) : memoryResult s = some s.E.aluResult.value := by
  simp [memoryResult, hst, hld, hlui, h]

/-- Settles O19: a set LUI or ALU flag excludes the store and the load, so `memoryResult` is the passed value and RAM
stays; `latchMemory` lists the copies. -/
theorem memoryTickPassThrough : Obligations.MemoryTickPassThrough := by
  intro s hs hexcl h t
  have ht : t = _ := cycle_memory hs h
  obtain ⟨hE, -⟩ := hexcl
  rw [ht]
  refine ⟨fun hlui => ?lui, fun halu => ?alu, rfl, rfl, rfl, rfl, rfl⟩
  case lui =>
    rw [hlui] at hE
    obtain ⟨-, hst, hld⟩ := atMostOne_true_right hE
    simp [latchMemory, hst, memoryResult_of_isLUI hst hld hlui]
  case alu =>
    rw [halu] at hE
    obtain ⟨hst, hld, hlui⟩ := atMostOne_true_left hE
    simp [latchMemory, hst, memoryResult_of_isAluOp hst hld hlui halu]

/-! ## WriteBack (R165) -/

/-- Settles O21: the WriteBack tick is `writeRegister` or nothing (`cycle_writeBack`), and no other stage sets a
register. -/
theorem writeBackTick : Obligations.WriteBackTick := by
  intro s hs t writes
  refine ⟨fun h hw => ?writes, fun h hw r => ?holds, fun h => rfValue_congr (cycle_RF_of_ne hs h)⟩
  case writes =>
    have ht : t = atBoundary (writeRegister s.M.rd.value s.M.writebackValue.value s) :=
      (cycle_writeBack hs h).trans (congrArg atBoundary (if_pos hw))
    have hr (r : Reg) : rfValue t r = if r = s.M.rd.value then s.M.writebackValue.value else rfValue s r := by
      rw [ht, rfValue_congr (atBoundary_RF _), rfValue_writeRegister]
    exact ⟨by rw [hr, if_pos rfl], fun r hne => by rw [hr, if_neg hne]⟩
  case holds =>
    have ht : t = atBoundary s := (cycle_writeBack hs h).trans (congrArg atBoundary (if_neg (Bool.eq_false_iff.1 hw)))
    rw [ht, rfValue_congr (atBoundary_RF s)]

end Sys2Proof.Machine
end

section
/-! PROOFS. 41_alu_register.md R200 to R210: how a word of the register form decodes, and what its instruction does to a
settled state. -/

namespace Sys2Proof.Machine

open Sys2Proof

/-- The decoder on a word put together in the register form: the opcode it reads back selects the register rows. -/
theorem decode_encodeR_aluReg (f7 : BitVec 7) (rs2 rs1 : Reg) (f3 : BitVec 3) (rd : Reg) :
    decode (encodeR f7 rs2 rs1 f3 rd Opcode.aluReg) = decodeAluReg (encodeR f7 rs2 rs1 f3 rd Opcode.aluReg) :=
  decode_of_aluReg (opcodeOf_encodeR f7 rs2 rs1 f3 rd Opcode.aluReg)

/-- An instruction that retires `f` of two operands, read after the Fetch tick, completes from a settled state and writes
`f` of the operands that state holds. -/
theorem exists_writesRegister_of_retireAlu {s : State} (hs : Settled s) {i : Instr} {w : Word} {rd rs1 rs2 : Reg}
    {v : Word} (f : Word → Word → Word)
    (hexec : exec i s =
      .next (retireAlu rd (f (operand (fetched w s) rs1) (operand (fetched w s) rs2)) (fetched w s)))
    (hv : f (operand s rs1) (operand s rs2) = v) : ∃ t, exec i s = .next t ∧ WritesRegister s t rd v := by
  rw [operand_fetched hs, operand_fetched hs, hv] at hexec
  exact ⟨_, hexec, writesRegister_retireAlu hs w rd v⟩

/-- Settles O44: `funct3` 0 decodes by bit 30, and the retired sum and difference are those of the unsigned readings. -/
theorem addSub : Obligations.AddSub := by
  intro s rd rs1 rs2 f7 hs a b
  have hdec := decode_encodeR_aluReg f7 rs2 rs1 0#3 rd
  refine ⟨fun (h30 : bit30 f7 = false) => hdec.trans ?_, fun (h30 : bit30 f7 = true) => hdec.trans ?_, ?add, ?sub⟩
  · simp [decodeAluReg, h30]
  · simp [decodeAluReg, h30]
  case add => exact exists_writesRegister_of_retireAlu hs (fun x y => x + y) rfl (BitVec.add_def a b)
  case sub => exact exists_writesRegister_of_retireAlu hs (fun x y => x - y) rfl (sub_eq_ofInt a b)

/-- Settles O45: `funct3` 1 decodes to SLL, `funct3` 5 by bit 30; the shift amount is the remainder modulo 32, and each
shift is the product or the quotient with the power of two. -/
theorem registerShifts : Obligations.RegisterShifts := by
  intro s rd rs1 rs2 f7 hs a n
  have hdec (f3 : BitVec 3) := decode_encodeR_aluReg f7 rs2 rs1 f3 rd
  have hn : shiftAmount (operand s rs2) = n := shiftAmount_eq_mod (operand s rs2)
  rw [← hn]
  refine ⟨(hdec 1#3).trans ?_, fun (h30 : bit30 f7 = false) => (hdec 5#3).trans ?_,
    fun (h30 : bit30 f7 = true) => (hdec 5#3).trans ?_, ?sll, ?srl, ?sra⟩
  · simp [decodeAluReg]
  · simp [decodeAluReg, h30]
  · simp [decodeAluReg, h30]
  case sll =>
    exact exists_writesRegister_of_retireAlu hs (fun x y => x <<< shiftAmount y) rfl (shiftLeft_eq_ofNat a _)
  case srl =>
    exact exists_writesRegister_of_retireAlu hs (fun x y => x >>> shiftAmount y) rfl (ushiftRight_eq_ofNat a _)
  case sra =>
    exact exists_writesRegister_of_retireAlu hs (fun x y => x.sshiftRight (shiftAmount y)) rfl
      (sshiftRight_eq_ofInt a _)

/-- Settles O46: these rows of `funct3` test no other bit; the comparisons are those of the signed and the unsigned
reading, and the bitwise results are retired as they stand. -/
theorem registerCompareLogic : Obligations.RegisterCompareLogic := by
  intro s rd rs1 rs2 f7 hs a b
  have hdec (f3 : BitVec 3) := decode_encodeR_aluReg f7 rs2 rs1 f3 rd
  refine ⟨(hdec 2#3).trans ?_, (hdec 3#3).trans ?_, (hdec 4#3).trans ?_, (hdec 6#3).trans ?_, (hdec 7#3).trans ?_,
    ?slt, ?sltu, ?xor, ?or, ?and⟩
  case slt =>
    exact exists_writesRegister_of_retireAlu hs (fun x y => boolWord (x.slt y)) rfl (boolWord_slt a b)
  case sltu =>
    exact exists_writesRegister_of_retireAlu hs (fun x y => boolWord (x.ult y)) rfl (boolWord_ult a b)
  case xor => exact exists_writesRegister_of_retireAlu hs (fun x y => x ^^^ y) rfl rfl
  case or => exact exists_writesRegister_of_retireAlu hs (fun x y => x ||| y) rfl rfl
  case and => exact exists_writesRegister_of_retireAlu hs (fun x y => x &&& y) rfl rfl
  all_goals simp [decodeAluReg]

end Sys2Proof.Machine
end

section
/-! PROOFS. 42_alu_immediate.md R220 to R229: how a word of the immediate form decodes, and what its instruction does to a
settled state. -/

namespace Sys2Proof.Machine

open Sys2Proof

/-! ## Words of the immediate form (R104, R107, R111) -/

@[simp] theorem shamtOf_encodeR (f7 : BitVec 7) (shamt : BitVec 5) (rs1 : Reg) (f3 : BitVec 3) (rd : Reg)
    (op : BitVec 7) : shamtOf (encodeR f7 shamt rs1 f3 rd op) = shamt :=
  rs2Of_encodeR f7 shamt rs1 f3 rd op

/-- The decoder on a word put together with a 12-bit immediate: the opcode it reads back selects the immediate rows. -/
theorem decode_encodeI_aluImm (imm : BitVec 12) (rs1 : Reg) (f3 : BitVec 3) (rd : Reg) :
    decode (encodeI imm rs1 f3 rd Opcode.aluImm) = decodeAluImm (encodeI imm rs1 f3 rd Opcode.aluImm) :=
  decode_of_aluImm (opcodeOf_encodeI imm rs1 f3 rd Opcode.aluImm)

/-- The same for a word whose immediate field is a shift amount below the seven bits of `funct7`. -/
theorem decode_encodeR_aluImm (upper : BitVec 7) (shamt : BitVec 5) (rs1 : Reg) (f3 : BitVec 3) (rd : Reg) :
    decode (encodeR upper shamt rs1 f3 rd Opcode.aluImm) =
      decodeAluImm (encodeR upper shamt rs1 f3 rd Opcode.aluImm) :=
  decode_of_aluImm (opcodeOf_encodeR upper shamt rs1 f3 rd Opcode.aluImm)

/-! ## What an immediate operation retires (R221 to R229) -/

/-- Adding a sign-extended immediate adds its signed reading, modulo 2^32. -/
theorem add_sext12_eq_ofInt (a : Word) (imm : BitVec 12) : a + sext12 imm = BitVec.ofInt 32 (a.toNat + imm.toInt) := by
  rw [BitVec.ofInt_add, ← toInt_sext12 imm, BitVec.ofInt_toInt, BitVec.ofInt_natCast, BitVec.ofNat_toNat,
    BitVec.setWidth_eq]

theorem boolWord_slt_sext12 (a : Word) (imm : BitVec 12) :
    boolWord (a.slt (sext12 imm)) = if a.toInt < imm.toInt then 1#32 else 0#32 := by
  rw [boolWord_slt, toInt_sext12]

/-- An instruction that retires `f` of its one register operand, read after the Fetch tick, completes from a settled state
and writes `f` of the operand that state holds. -/
theorem exists_writesRegister_of_retireAluImm {s : State} (hs : Settled s) {i : Instr} {w : Word} {rd rs1 : Reg}
    {v : Word} (f : Word → Word)
    (hexec : exec i s = .next (retireAlu rd (f (operand (fetched w s) rs1)) (fetched w s)))
    (hv : f (operand s rs1) = v) : ∃ t, exec i s = .next t ∧ WritesRegister s t rd v :=
  exists_writesRegister_of_retireAlu (rs2 := rs1) hs (fun x _ => f x) hexec hv

/-- Settles O47: these rows of `funct3` read the whole 12-bit field; the sum and the signed comparison are those of its
signed reading, the unsigned comparison and the bitwise results those of its sign extension. -/
theorem immediateArithmetic : Obligations.ImmediateArithmetic := by
  intro s rd rs1 imm hs a x
  have hdec (f3 : BitVec 3) := decode_encodeI_aluImm imm rs1 f3 rd
  refine ⟨(hdec 0#3).trans ?_, (hdec 2#3).trans ?_, (hdec 3#3).trans ?_, (hdec 4#3).trans ?_, (hdec 6#3).trans ?_,
    (hdec 7#3).trans ?_, ?addi, ?slti, ?sltiu, ?xori, ?ori, ?andi⟩
  case addi =>
    exact exists_writesRegister_of_retireAluImm hs (fun y => y + sext12 imm) rfl (add_sext12_eq_ofInt a imm)
  case slti =>
    exact exists_writesRegister_of_retireAluImm hs (fun y => boolWord (y.slt (sext12 imm))) rfl
      (boolWord_slt_sext12 a imm)
  case sltiu =>
    exact exists_writesRegister_of_retireAluImm hs (fun y => boolWord (y.ult (sext12 imm))) rfl (boolWord_ult a x)
  case xori => exact exists_writesRegister_of_retireAluImm hs (fun y => y ^^^ sext12 imm) rfl rfl
  case ori => exact exists_writesRegister_of_retireAluImm hs (fun y => y ||| sext12 imm) rfl rfl
  case andi => exact exists_writesRegister_of_retireAluImm hs (fun y => y &&& sext12 imm) rfl rfl
  all_goals simp [decodeAluImm]

/-- Settles O48: `funct3` 1 decodes to SLLI, `funct3` 5 by bit 30; bit 30 chooses the name only, and both right shifts
are the quotient of the unsigned reading. -/
theorem immediateShifts : Obligations.ImmediateShifts := by
  intro s rd rs1 shamt upper hs a
  have hdec (f3 : BitVec 3) := decode_encodeR_aluImm upper shamt rs1 f3 rd
  refine ⟨(hdec 1#3).trans ?_, fun (h30 : bit30 upper = false) => (hdec 5#3).trans ?_,
    fun (h30 : bit30 upper = true) => (hdec 5#3).trans ?_, ?slli, ?srli, ?srai⟩
  · simp [decodeAluImm]
  · simp [decodeAluImm, h30]
  · simp [decodeAluImm, h30]
  case slli =>
    exact exists_writesRegister_of_retireAluImm hs (fun y => y <<< shamt.toNat) rfl (shiftLeft_eq_ofNat a _)
  case srli | srai =>
    exact exists_writesRegister_of_retireAluImm hs (fun y => y >>> shamt.toNat) rfl (ushiftRight_eq_ofNat a _)

end Sys2Proof.Machine
end

section
/-! PROOFS. 43_lui.md R240: what LUI does to a settled state. -/

namespace Sys2Proof.Machine

open Sys2Proof

/-- LUI retires its field above 12 zero bits. -/
theorem exec_lui (rd : Reg) (imm20 : BitVec 20) (s : State) :
    exec (.lui rd imm20) s = .next (retireLui rd (upperImm imm20) (fetched (encode (.lui rd imm20)) s)) := rfl

/-- The immediate LUI latched in Decode is the value it retires; Execute copied it (R148, R152). -/
@[simp] theorem retireLui_D_imm32 (rd : Reg) (v : Word) (s : State) : (retireLui rd v s).D.imm32 = .init v := rfl
@[simp] theorem retireLui_E_imm32 (rd : Reg) (v : Word) (s : State) : (retireLui rd v s).E.imm32 = .init v := rfl

/-- Settles O49: the opcode selects LUI's row, and the retired value is the U-type immediate of the word
(`immU_eq_upperImm`). -/
theorem loadUpperImmediate : Obligations.LoadUpperImmediate := by
  intro s w hs hop rd v
  have hv : upperImm (fieldU w) = v := (immU_eq_upperImm w).symm
  have hexec := exec_lui rd (fieldU w) s
  rw [hv] at hexec
  exact ⟨decode_of_lui hop, _, hexec, writesRegister_retireLui hs _ rd v, by simp, by simp⟩

end Sys2Proof.Machine
end

section
/-! PROOFS. 44_loads.md R250 to R255: how a word of the load opcode decodes, and what its instruction does to a settled
state. -/

namespace Sys2Proof.Machine

open Sys2Proof

/-- The decoder on a word put together with the load opcode: the opcode it reads back selects the load rows. -/
theorem decode_encodeI_load (imm : BitVec 12) (rs1 : Reg) (f3 : BitVec 3) (rd : Reg) :
    decode (encodeI imm rs1 f3 rd Opcode.load) = decodeLoad (encodeI imm rs1 f3 rd Opcode.load) :=
  decode_of_load (opcodeOf_encodeI imm rs1 f3 rd Opcode.load)

/-- The Fetch tick changes nothing a bus read can see. -/
theorem busRead_fetched (w : Word) (s : State) (a : Word) (wd : Width) : busRead (fetched w s) a wd = busRead s a wd :=
  busRead_congr (fetched_ROM w s) (fetched_RAM w s) (fetched_romLoaded w s) a wd

theorem effectiveAddress_fetched {s : State} (hs : Settled s) (w : Word) (rs1 : Reg) (imm : BitVec 12) :
    effectiveAddress (fetched w s) rs1 imm = effectiveAddress s rs1 imm := by
  rw [effectiveAddress, operand_fetched hs, effectiveAddress]

/-- An instruction that retires the extension `f` of one bus read, made after the Fetch tick, completes from a settled
state and writes `f` of what that state answers at the effective address. -/
theorem exists_writesRegister_of_retireLoad {s : State} (hs : Settled s) {i : Instr} {w : Word} {rd rs1 : Reg}
    {imm : BitVec 12} {wd : Width} {v : Word} (f : Word → Word)
    (hexec : exec i s =
      .next (retireLoad rd (f (busRead (fetched w s) (effectiveAddress (fetched w s) rs1 imm) wd)) (fetched w s)))
    (hv : f (busRead s (effectiveAddress s rs1 imm) wd) = v) : ∃ t, exec i s = .next t ∧ WritesRegister s t rd v := by
  rw [busRead_fetched, effectiveAddress_fetched hs, hv] at hexec
  exact ⟨_, hexec, writesRegister_retireLoad hs w rd v⟩

/-! ## The sign extensions of a narrow read, as numbers (00_scope.md R8) -/

/-- Sign extension from bit `n` of a word with no bit above it: the upper half of the range reads `2 ^ (n + 1)` lower. -/
theorem signExtend_setWidth_eq_ofInt {n : Nat} {b : Word} (hb : b.toNat < 2 ^ (n + 1)) :
    (b.setWidth (n + 1)).signExtend 32 =
      BitVec.ofInt 32 (if b.toNat < 2 ^ n then (b.toNat : Int) else b.toNat - (2 ^ (n + 1) : Nat)) := by
  have htwo : 2 * b.toNat < 2 ^ (n + 1) ↔ b.toNat < 2 ^ n := by rw [Nat.pow_succ]; omega
  rw [BitVec.signExtend, BitVec.toInt_eq_toNat_cond, BitVec.toNat_setWidth, Nat.mod_eq_of_lt hb, if_congr htwo rfl rfl]

/-- What LB retires: the signed reading of the byte, a bus read answering 8 bits. -/
theorem sext8_busRead (s : State) (a : Word) :
    let b := busRead s a .byte
    sext8 b = BitVec.ofInt 32 (if b.toNat < 128 then (b.toNat : Int) else (b.toNat : Int) - 256) :=
  signExtend_setWidth_eq_ofInt (n := 7) (busRead_byte_lt s a)

/-- What LH retires: the signed reading of the half-word, a bus read answering 16 bits at odd offsets too. -/
theorem sext16_busRead (s : State) (a : Word) :
    let h := busRead s a .half
    sext16 h = BitVec.ofInt 32 (if h.toNat < 32768 then (h.toNat : Int) else (h.toNat : Int) - 65536) :=
  signExtend_setWidth_eq_ofInt (n := 15) (busRead_half_lt s a)

/-! ## The loads (R251 to R255) -/

/-- Settles O50: `funct3` 0 and 4 decode to LB and LBU; the byte read is retired sign-extended, or as it stands because it
is its own zero extension. -/
theorem byteLoads : Obligations.ByteLoads := by
  intro s rd rs1 imm hs b
  have hdec (f3 : BitVec 3) := decode_encodeI_load imm rs1 f3 rd
  refine ⟨(hdec 0#3).trans ?_, (hdec 4#3).trans ?_, ?lb, ?lbu⟩
  case lb => exact exists_writesRegister_of_retireLoad hs sext8 rfl (sext8_busRead s _)
  case lbu => exact exists_writesRegister_of_retireLoad hs zext8 rfl (zext8_busRead s _)
  all_goals simp [decodeLoad]

/-- Settles O51: `funct3` 1 and 5 decode to LH and LHU, which retire the two extensions of the half-word read. The
argument does not use that the address is even: what an odd one reads is 16 bits too. -/
theorem halfWordLoads : Obligations.HalfWordLoads := by
  intro s rd rs1 imm hs a h
  have hdec (f3 : BitVec 3) := decode_encodeI_load imm rs1 f3 rd
  refine ⟨(hdec 1#3).trans ?_, (hdec 5#3).trans ?_, fun _ => ⟨?lh, ?lhu⟩⟩
  case lh => exact exists_writesRegister_of_retireLoad hs sext16 rfl (sext16_busRead s a)
  case lhu => exact exists_writesRegister_of_retireLoad hs zext16 rfl (zext16_busRead s a)
  all_goals simp [decodeLoad]

/-- Settles O53: `funct3` 2 decodes to LW, which retires the word read as it stands. -/
theorem wordLoad : Obligations.WordLoad := by
  intro s rd rs1 imm hs w
  refine ⟨(decode_encodeI_load imm rs1 2#3 rd).trans ?_, exists_writesRegister_of_retireLoad hs id rfl rfl⟩
  simp [decodeLoad]

end Sys2Proof.Machine
end

section
/-! PROOFS. 30_encoding.md sections 1 to 4 and 7: the decoder and the encoder are inverse to each other, and the decoder
selects the row of the opcode table that the word matches. -/

namespace Sys2Proof.Machine

open Sys2Proof

/-! ## The words of no class (R114) -/

section ByOpcode

variable {w : Word}

theorem decode_of_branch (h : opcodeOf w = Opcode.branch) : decode w = .branch (fieldRest w) := by
  unfold decode; rw [h]; rfl

theorem decode_of_jal (h : opcodeOf w = Opcode.jal) : decode w = .jal (fieldRest w) := by
  unfold decode; rw [h]; rfl

theorem decode_of_jalr (h : opcodeOf w = Opcode.jalr) : decode w = .jalr (fieldRest w) := by
  unfold decode; rw [h]; rfl

theorem decode_of_auipc (h : opcodeOf w = Opcode.auipc) : decode w = .auipc (fieldRest w) := by
  unfold decode; rw [h]; rfl

theorem decode_of_miscMem (h : opcodeOf w = Opcode.miscMem) : decode w = .miscMem (fieldRest w) := by
  unfold decode; rw [h]; rfl

theorem decode_of_system (h : opcodeOf w = Opcode.system) : decode w = .system (fieldRest w) := by
  unfold decode; rw [h]; rfl

/-- The fallback row takes every word whose opcode no other row names. -/
theorem decode_of_not_mem_named (h : opcodeOf w ∉ Opcode.named) : decode w = .unrecognized w := by
  simp only [Opcode.named, List.mem_cons, List.not_mem_nil, or_false, not_or] at h
  unfold decode
  simp only [h, if_false]

end ByOpcode

/-- Settles O6: each named opcode selects its row, and a word of none of the eleven the fallback row. -/
theorem noClassSelection : Obligations.NoClassSelection := fun _ =>
  ⟨decode_of_branch, decode_of_jal, decode_of_jalr, decode_of_auipc, decode_of_miscMem, decode_of_system,
    decode_of_not_mem_named⟩

/-- Settles O8: twelve closed words, decoded by evaluation. -/
theorem specWordsDecode : Obligations.SpecWordsDecode := by
  unfold Obligations.SpecWordsDecode
  decide

/-! ## Decoding what was encoded (R102) -/

/-- The decoder on a store word: the opcode it reads back selects the store rows. -/
theorem decode_encodeS (imm : BitVec 12) (rs2 rs1 : Reg) (f3 : BitVec 3) :
    decode (encodeS imm rs2 rs1 f3) = decodeStore (encodeS imm rs2 rs1 f3) :=
  decode_of_store (opcodeOf_encodeS imm rs2 rs1 f3)

/-- Settles O1: the opcode and `funct3` read back from the word select the row of the constructor, and every operand is
read back from its own field; the well-formedness supplies bit 30 where two rows differ in it. -/
theorem decodeOfEncode : Obligations.DecodeOfEncode := by
  intro i hwf
  cases i
  case add | sub | srl | sra =>
    simp only [Instr.wellFormed, Bool.not_eq_true'] at hwf
    exact (decode_encodeR_aluReg ..).trans (by simp [decodeAluReg, hwf])
  case sll | slt | sltu | xor | or | and => exact (decode_encodeR_aluReg ..).trans (by simp [decodeAluReg])
  case addi | slti | sltiu | xori | ori | andi => exact (decode_encodeI_aluImm ..).trans (by simp [decodeAluImm])
  case slli => exact (decode_encodeR_aluImm ..).trans (by simp [decodeAluImm])
  case srli | srai =>
    simp only [Instr.wellFormed, Bool.not_eq_true'] at hwf
    exact (decode_encodeR_aluImm ..).trans (by simp [decodeAluImm, hwf])
  case lui => exact (decode_of_lui (opcodeOf_encodeU ..)).trans (by simp)
  case lb | lh | lw | loadF3is3 | lbu | lhu | loadF3is6 | loadF3is7 =>
    exact (decode_encodeI_load ..).trans (by simp [decodeLoad])
  case sb | sh | sw | storeF3is3 | storeF3is4 | storeF3is5 | storeF3is6 | storeF3is7 =>
    exact (decode_encodeS ..).trans (by simp [decodeStore])
  case branch => exact (decode_of_branch (opcodeOf_encodeRest ..)).trans (by simp)
  case jal => exact (decode_of_jal (opcodeOf_encodeRest ..)).trans (by simp)
  case jalr => exact (decode_of_jalr (opcodeOf_encodeRest ..)).trans (by simp)
  case auipc => exact (decode_of_auipc (opcodeOf_encodeRest ..)).trans (by simp)
  case miscMem => exact (decode_of_miscMem (opcodeOf_encodeRest ..)).trans (by simp)
  case system => exact (decode_of_system (opcodeOf_encodeRest ..)).trans (by simp)
  case unrecognized w =>
    exact decode_of_not_mem_named (by simpa [Instr.wellFormed, encode, opcodeOf] using hwf)

/-! ## Encoding what was decoded (R113, R114) -/

/-- A decoded instruction is one of the model's, and it is the word's. -/
def Encodes (i : Instr) (w : Word) : Prop := i.wellFormed = true ∧ encode i = w

section Encodes

variable {w : Word}

/-- `funct3` selects the row, and for its values 0 and 5 bit 30, which is the well-formedness of that row. -/
theorem encodes_decodeAluReg (h : opcodeOf w = Opcode.aluReg) : Encodes (decodeAluReg w) w := by
  have e := encodeR_fields w
  rw [h] at e
  unfold Encodes decodeAluReg
  cases h30 : bit30 (funct7Of w) <;>
    rcases funct3_cases (funct3Of w) with h3 | h3 | h3 | h3 | h3 | h3 | h3 | h3 <;>
      (rw [h3] at e; simp [h3, Instr.wellFormed, h30, encode, e])

/-- The shifts keep their word as `funct7` and the amount, the others as the 12-bit field. -/
theorem encodes_decodeAluImm (h : opcodeOf w = Opcode.aluImm) : Encodes (decodeAluImm w) w := by
  have eI := encodeI_fields w
  have eR := encodeR_fields w
  rw [h] at eI eR
  unfold Encodes decodeAluImm shamtOf
  cases h30 : bit30 (funct7Of w) <;>
    rcases funct3_cases (funct3Of w) with h3 | h3 | h3 | h3 | h3 | h3 | h3 | h3 <;>
      (rw [h3] at eI eR; simp [h3, Instr.wellFormed, h30, encode, eI, eR])

theorem encodes_decodeLoad (h : opcodeOf w = Opcode.load) : Encodes (decodeLoad w) w := by
  have e := encodeI_fields w
  rw [h] at e
  unfold Encodes decodeLoad
  rcases funct3_cases (funct3Of w) with h3 | h3 | h3 | h3 | h3 | h3 | h3 | h3 <;>
    (rw [h3] at e; simp [h3, Instr.wellFormed, encode, e])

theorem encodes_decodeStore (h : opcodeOf w = Opcode.store) : Encodes (decodeStore w) w := by
  have e := encodeS_fields w h
  unfold Encodes decodeStore
  rcases funct3_cases (funct3Of w) with h3 | h3 | h3 | h3 | h3 | h3 | h3 | h3 <;>
    (rw [h3] at e; simp [h3, Instr.wellFormed, encode, e])

theorem encodeRest_of_opcode {op : BitVec 7} (h : opcodeOf w = op) : encodeRest (fieldRest w) op = w := by
  rw [← h, encodeRest_fields]

/-- Every row is well-formed on the words that select it, and keeps them whole. -/
theorem encodes_decode (w : Word) : Encodes (decode w) w := by
  rcases decode_cases w with ⟨h, hd⟩ | ⟨h, hd⟩ | ⟨h, hd⟩ | ⟨h, hd⟩ | ⟨h, hd⟩ | ⟨h, hd⟩ | ⟨h, hd⟩ | ⟨h, hd⟩ |
    ⟨h, hd⟩ | ⟨h, hd⟩ | ⟨h, hd⟩ | ⟨h, hd⟩ <;> rw [hd]
  · exact encodes_decodeAluReg h
  · exact encodes_decodeAluImm h
  · exact encodes_decodeLoad h
  · exact encodes_decodeStore h
  · exact ⟨rfl, (congrArg (encodeU _ _) h).symm.trans (encodeU_fields w)⟩
  iterate 6 exact ⟨rfl, encodeRest_of_opcode h⟩
  · exact ⟨congrArg (!·) h, rfl⟩

end Encodes

/-- Settles O2: row by row, the decoder keeps every field of the word, and the fields make the word again. -/
theorem encodeOfDecode : Obligations.EncodeOfDecode := encodes_decode

theorem encode_decode (w : Word) : encode (decode w) = w := (encodes_decode w).2

/-! ## The rows of the opcode table (R118) -/

open Laws.RowMatch in
/-- Every well-formed instruction's word matches its own row, constructor by constructor. -/
theorem encode_matches_row (i : Instr) : Statement i := by
  cases i
  exacts [add _ _ _ _, sub _ _ _ _, sll _ _ _ _, slt _ _ _ _, sltu _ _ _ _, Laws.RowMatch.xor _ _ _ _, srl _ _ _ _,
    sra _ _ _ _, Laws.RowMatch.or _ _ _ _, Laws.RowMatch.and _ _ _ _, addi _ _ _, slti _ _ _, sltiu _ _ _, xori _ _ _,
    ori _ _ _, andi _ _ _, slli _ _ _ _, srli _ _ _ _, srai _ _ _ _, lui _ _, lb _ _ _, lh _ _ _, lw _ _ _,
    loadF3is3 _ _ _, lbu _ _ _, lhu _ _ _, loadF3is6 _ _ _, loadF3is7 _ _ _, sb _ _ _, sh _ _ _, sw _ _ _,
    storeF3is3 _ _ _, storeF3is4 _ _ _, storeF3is5 _ _ _, storeF3is6 _ _ _, storeF3is7 _ _ _, branch _, jal _, jalr _,
    auipc _, miscMem _, system _, unrecognized _]

/-- A word matches the row it decodes to. -/
theorem and_rowOf_decode (w : Word) : w &&& (rowOf (decode w)).1 = (rowOf (decode w)).2 := by
  obtain ⟨hwf, henc⟩ := encodes_decode w
  have h := encode_matches_row (decode w) hwf
  rwa [henc] at h

section Masks

variable {w mask m : Word} (h : w &&& mask = m)

include h

/-- A mask that covers the opcode leaves it in the match. -/
theorem opcodeOf_of_and_eq (hmask : opcodeOf mask = BitVec.allOnes 7) : opcodeOf w = opcodeOf m := by
  unfold opcodeOf at hmask ⊢
  rw [← h, BitVec.extractLsb'_and, hmask, BitVec.and_allOnes]

theorem funct3Of_of_and_eq (hmask : funct3Of mask = BitVec.allOnes 3) : funct3Of w = funct3Of m := by
  unfold funct3Of at hmask ⊢
  rw [← h, BitVec.extractLsb'_and, hmask, BitVec.and_allOnes]

theorem bit30_of_and_eq (hmask : mask.getLsbD 30 = true) : bit30 (funct7Of w) = m.getLsbD 30 := by
  rw [bit30_funct7Of, ← h, BitVec.getLsbD_and, hmask, Bool.and_true]

end Masks

/-- A word that matches a row decodes to that row: the mask covers the bits the decoder tests for it. -/
theorem rowOf_decode_of_matches {w : Word} {i : Instr} (hmask : (rowOf i).1 ≠ 0#32)
    (h : w &&& (rowOf i).1 = (rowOf i).2) : rowOf (decode w) = rowOf i := by
  cases i <;> simp only [rowOf] at h hmask ⊢
  case unrecognized => exact absurd rfl hmask
  case add | sub | srl | sra =>
    rw [decode_of_aluReg (opcodeOf_of_and_eq h (by decide))]
    unfold decodeAluReg
    rw [funct3Of_of_and_eq h (by decide), bit30_of_and_eq h (by decide)]
    rfl
  case sll | slt | sltu | xor | or | and =>
    rw [decode_of_aluReg (opcodeOf_of_and_eq h (by decide))]
    unfold decodeAluReg
    rw [funct3Of_of_and_eq h (by decide)]
    rfl
  case srli | srai =>
    rw [decode_of_aluImm (opcodeOf_of_and_eq h (by decide))]
    unfold decodeAluImm
    rw [funct3Of_of_and_eq h (by decide), bit30_of_and_eq h (by decide)]
    rfl
  case addi | slti | sltiu | xori | ori | andi | slli =>
    rw [decode_of_aluImm (opcodeOf_of_and_eq h (by decide))]
    unfold decodeAluImm
    rw [funct3Of_of_and_eq h (by decide)]
    rfl
  case lb | lh | lw | loadF3is3 | lbu | lhu | loadF3is6 | loadF3is7 =>
    rw [decode_of_load (opcodeOf_of_and_eq h (by decide))]
    unfold decodeLoad
    rw [funct3Of_of_and_eq h (by decide)]
    rfl
  case sb | sh | sw | storeF3is3 | storeF3is4 | storeF3is5 | storeF3is6 | storeF3is7 =>
    rw [decode_of_store (opcodeOf_of_and_eq h (by decide))]
    unfold decodeStore
    rw [funct3Of_of_and_eq h (by decide)]
    rfl
  case lui => rw [decode_of_lui (opcodeOf_of_and_eq h (by decide))]
  case branch => rw [decode_of_branch (opcodeOf_of_and_eq h (by decide))]
  case jal => rw [decode_of_jal (opcodeOf_of_and_eq h (by decide))]
  case jalr => rw [decode_of_jalr (opcodeOf_of_and_eq h (by decide))]
  case auipc => rw [decode_of_auipc (opcodeOf_of_and_eq h (by decide))]
  case miscMem => rw [decode_of_miscMem (opcodeOf_of_and_eq h (by decide))]
  case system => rw [decode_of_system (opcodeOf_of_and_eq h (by decide))]

/-- Settles O7: a row's mask covers what the decoder tests for it, and a word matches the row it decodes to. -/
theorem rowSelection : Obligations.RowSelection := fun w _ hmask =>
  ⟨rowOf_decode_of_matches hmask, fun hrow => hrow ▸ and_rowOf_decode w⟩

end Sys2Proof.Machine
end

section
/-! PROOFS. 40_pipeline_stages.md section 8, 60_exceptions.md section 1: every instruction completes, one step from a Fetch
boundary is five ticks, and runs of any length complete. -/

namespace Sys2Proof.Machine

open Sys2Proof

/-! ## Every instruction completes (R300) -/

/-- A bus write moves nothing that `StepsPast` looks at. -/
theorem stepsPast_busWrite {s t : State} (h : StepsPast s t) (a v : Word) (wd : Width) :
    StepsPast s (busWrite t a v wd) := by
  simpa [StepsPast] using h

/-- Settles O43: every arm of `exec` is a retirement over the fetched state, and three add a bus write to it. -/
theorem noInstructionStops : Obligations.NoInstructionStops := by
  intro i s
  cases i
  case sb | sh | sw =>
    refine ⟨_, rfl, stepsPast_busWrite ?_ _ _ _⟩
    exact ⟨rfl, rfl, rfl, rfl⟩
  all_goals exact ⟨_, rfl, rfl, rfl, rfl, rfl⟩

/-! ## What a step is (R175, R182, R332) -/

section Step

variable {s : State}

theorem step_of_not_loaded (h : s.romLoaded = false) : step s = .refused .launchBeforeLoad := by
  simp [step, h]

/-- At a Fetch boundary a step runs the instruction the fetched word decodes to. -/
theorem step_of_fetch (hl : s.romLoaded = true) (h : s.sel = .IF) : step s = exec (decode (fetchWord s)) s := by
  simp [step, hl, h]

/-- Inside an instruction a step runs the ticks that are left of it. -/
theorem step_of_inFlight (hl : s.romLoaded = true) (h : s.sel ≠ .IF) : step s = .next (finishInFlight s) := by
  cases hsel : s.sel with
  | IF => contradiction
  | DE | EX | MEM | WB => simp [step, hl, hsel]

end Step

/-- Settles O37: the fetched word is the bus read at `pc`. -/
theorem stepRunsDecoded : Obligations.StepRunsDecoded := fun _ _ hl h hdec =>
  (step_of_fetch hl h).trans (congrArg (exec · _) hdec)

/-- Settles O31: the launch flag is the one thing `step` and `hostCycle` test before they answer. -/
theorem launchNeedsLoad : Obligations.LaunchNeedsLoad := by
  refine fun s => ⟨fun hl => ⟨step_of_not_loaded hl, by simp [hostCycle, hl]⟩, fun hl => ⟨?_, by simp [hostCycle, hl]⟩⟩
  by_cases h : s.sel = .IF
  · obtain ⟨t, ht, -⟩ := noInstructionStops (decode (fetchWord s)) s
    exact ⟨t, (step_of_fetch hl h).trans ht⟩
  · exact ⟨_, step_of_inFlight hl h⟩

/-! ## The instruction level, class by class, in the fields of the word (R180)

Each lemma says what `exec` answers for the word `w` in the terms in which `fiveTicks_alu` to `fiveTicks_noClass` say
what five ticks do. -/

section ByClass

variable {w : Word} (s : State)

/-- The Fetch tick of a word is that of the instruction it decodes to. -/
theorem fetched_encode_of_encodes {i : Instr} (h : Encodes i w) : fetched w s = fetched (encode i) s := by
  rw [h.2]

/-- The register form: the result is the ALU's for the fields of the word. -/
theorem exec_decodeAluReg (h : opcodeOf w = Opcode.aluReg) :
    exec (decodeAluReg w) s =
      (let f := fetched w s
       .next (retireAlu (rdOf w)
         (alu (funct3Of w) (isRegisterOp (opcodeOf w)) (bit30 (funct7Of w)) (operand f (rs1Of w)) (operand f (rs2Of w))
           (immI w) (shamtOf w)) f)) := by
  rw [fetched_encode_of_encodes s (encodes_decodeAluReg h), h]
  unfold decodeAluReg
  cases bit30 (funct7Of w) <;>
    rcases funct3_cases (funct3Of w) with h3 | h3 | h3 | h3 | h3 | h3 | h3 | h3 <;> (rw [h3]; rfl)

/-- The immediate form, whose shifts never test bit 30. -/
theorem exec_decodeAluImm (h : opcodeOf w = Opcode.aluImm) :
    exec (decodeAluImm w) s =
      (let f := fetched w s
       .next (retireAlu (rdOf w)
         (alu (funct3Of w) (isRegisterOp (opcodeOf w)) (bit30 (funct7Of w)) (operand f (rs1Of w)) (operand f (rs2Of w))
           (immI w) (shamtOf w)) f)) := by
  rw [fetched_encode_of_encodes s (encodes_decodeAluImm h), h]
  unfold decodeAluImm
  cases bit30 (funct7Of w) <;>
    rcases funct3_cases (funct3Of w) with h3 | h3 | h3 | h3 | h3 | h3 | h3 | h3 <;> (rw [h3]; rfl)

/-- LUI: the 20-bit field above 12 zeros is the masked word. -/
theorem exec_decode_lui (h : opcodeOf w = Opcode.lui) :
    exec (.lui (rdOf w) (fieldU w)) s = .next (retireLui (rdOf w) (immU w) (fetched w s)) := by
  rw [exec_lui, immU_eq_upperImm, ← decode_of_lui h, encode_decode]

/-- The load arm finds in the Execute cells of a load the effective address of its instruction (R155). -/
theorem memoryAddress_issue_load (f : State) :
    memoryAddress (issue .load (immI f.F.inst.value) f) =
      effectiveAddress f (rs1Of f.F.inst.value) (fieldI f.F.inst.value) :=
  BitVec.add_comm _ _

theorem memoryAddress_issue_store (f : State) :
    memoryAddress (issue .store (immS f.F.inst.value) f) =
      effectiveAddress f (rs1Of f.F.inst.value) (fieldS f.F.inst.value) :=
  BitVec.add_comm _ _

/-- The loads: the value each retires is the load arm's, or the held one where the arm has none. -/
theorem exec_decodeLoad (h : opcodeOf w = Opcode.load) :
    exec (decodeLoad w) s =
      (let f := fetched w s
       .next (retireLoad (rdOf w) ((loadArm (issue .load (immI w) f)).getD f.M.writebackValue.value) f)) := by
  have hf := fetched_encode_of_encodes s (encodes_decodeLoad h)
  have haddr := memoryAddress_issue_load (fetched w s)
  have hread (a wd) : busRead (issue .load (immI w) (fetched w s)) a wd = busRead (fetched w s) a wd :=
    busRead_congr rfl rfl rfl a wd
  have hf3 : (issue .load (immI w) (fetched w s)).E.funct3.value = funct3Of w := rfl
  simp only [fetched_F, ClockedCell.value_init] at haddr
  simp only [loadArm, haddr, hread, hf3]
  rw [hf]
  unfold decodeLoad
  rcases funct3_cases (funct3Of w) with h3 | h3 | h3 | h3 | h3 | h3 | h3 | h3 <;>
    simp [h3, exec, execLb, execLh, execLw, execLoadF3is3, execLbu, execLhu, execLoadF3is6, execLoadF3is7,
      zext8_busRead, zext16_busRead]

/-- A retired store's bus write changes RAM alone, by what RAM held. -/
theorem busWrite_retireStore {f u : State} (h : u.RAM = f.RAM) (a v : Word) (wd : Width) :
    busWrite (retireStore f) a v wd = { retireStore f with RAM := (busWrite u a v wd).RAM } := by
  rw [busWrite_eq, busWrite_RAM_congr (s := u) (t := retireStore f) h.symm]

/-- The stores: the bus write each makes is the store arm's. -/
theorem exec_decodeStore (h : opcodeOf w = Opcode.store) :
    exec (decodeStore w) s =
      (let f := fetched w s
       .next { retireStore f with RAM := (storeArm (issue .store (immS w) f)).RAM }) := by
  have hf := fetched_encode_of_encodes s (encodes_decodeStore h)
  have haddr := memoryAddress_issue_store (fetched w s)
  have hf3 : (issue .store (immS w) (fetched w s)).E.funct3.value = funct3Of w := rfl
  have hrs2 : (issue .store (immS w) (fetched w s)).E.rs2.value = operand (fetched w s) (rs2Of w) := rfl
  have hwrite := busWrite_retireStore (f := fetched w s) (u := issue .store (immS w) (fetched w s)) rfl
  simp only [fetched_F, ClockedCell.value_init] at haddr
  simp only [storeArm, haddr, hf3, hrs2]
  rw [hf] at hwrite ⊢
  unfold decodeStore at hwrite ⊢
  rcases funct3_cases (funct3Of w) with h3 | h3 | h3 | h3 | h3 | h3 | h3 | h3 <;> rw [h3] at hwrite ⊢
  · exact congrArg _ (hwrite _ _ .byte)
  · exact congrArg _ (hwrite _ _ .half)
  · exact congrArg _ (hwrite _ _ .word)
  all_goals rfl

end ByClass

/-- An opcode that no row names is of no class. -/
theorem classOf_of_not_named : ∀ op : BitVec 7, Opcode.named.contains op = false → classOf op = .noClass := by decide

/-- An instruction of no class is five ticks, whatever its row. -/
theorem exec_noClass_eq_runTicks {s : State} (h : s.sel = .IF) {i : Instr} (hd : decode (fetchWord s) = i)
    (hc : classOf (opcodeOf (fetchWord s)) = .noClass)
    (hexec : exec i s = .next (retireNoClass (fetched (encode i) s))) : exec i s = .next (runTicks 5 s) := by
  rw [hexec, ← hd, encode_decode, fiveTicks_noClass h hc]

/-- Settles O40: class by class, the instruction level in the fields of the fetched word is what five ticks leave. -/
theorem stepIsFiveTicks : Obligations.StepIsFiveTicks := by
  intro s hl h
  rw [step_of_fetch hl h]
  rcases decode_cases (fetchWord s) with ⟨hop, hd⟩ | ⟨hop, hd⟩ | ⟨hop, hd⟩ | ⟨hop, hd⟩ | ⟨hop, hd⟩ | ⟨hop, hd⟩ |
    ⟨hop, hd⟩ | ⟨hop, hd⟩ | ⟨hop, hd⟩ | ⟨hop, hd⟩ | ⟨hop, hd⟩ | ⟨hop, hd⟩ <;> rw [hd]
  · rw [exec_decodeAluReg s hop, fiveTicks_alu h (by rw [hop]; rfl)]
  · rw [exec_decodeAluImm s hop, fiveTicks_alu h (by rw [hop]; rfl)]
  · rw [exec_decodeLoad s hop, fiveTicks_load h (by rw [hop]; rfl)]
  · rw [exec_decodeStore s hop, fiveTicks_store h (by rw [hop]; rfl)]
  · rw [exec_decode_lui s hop, fiveTicks_lui h (by rw [hop]; rfl)]
  iterate 6 exact exec_noClass_eq_runTicks h hd (by rw [hop]; rfl) rfl
  · exact exec_noClass_eq_runTicks h hd (classOf_of_not_named _ hop) rfl

/-! ## Runs of any length -/

theorem runTicks_add (m n : Nat) (s : State) : runTicks (m + n) s = runTicks n (runTicks m s) := by
  induction m generalizing s with
  | zero => rw [Nat.zero_add]; rfl
  | succ m ih => rw [Nat.succ_add]; exact ih (cycle s)

/-- A step, then a run from where it leads. -/
theorem runs_succ {s t u : State} {n : Nat} (h : step s = .next t) (hr : Runs n t u) : Runs (n + 1) s u := by
  have hstep : core.step s = .next t := h
  simpa only [Runs, Host.Core.run, hstep] using hr

/-- Five ticks of a loaded machine are an instruction, with the frame every instruction has. -/
theorem stepsPast_runTicks_five {s : State} (hl : s.romLoaded = true) (h : s.sel = .IF) :
    StepsPast s (runTicks 5 s) := by
  obtain ⟨t, ht, hpast⟩ := noInstructionStops (decode (fetchWord s)) s
  have hnext : Host.Outcome.next t = .next (runTicks 5 s) :=
    ht.symm.trans ((step_of_fetch hl h).symm.trans (stepIsFiveTicks s hl h))
  exact Host.Outcome.next.inj hnext ▸ hpast

/-- Settles O41: by induction on the number of steps; each is five ticks and ends loaded at a Fetch boundary, with `pc` 4
further. -/
theorem runsForever : Obligations.RunsForever := by
  intro n
  induction n with
  | zero => exact fun s _ h => ⟨rfl, h, (BitVec.add_zero _).symm⟩
  | succ n ih =>
    intro s hl h
    obtain ⟨hpc, hsel, -, hload⟩ := stepsPast_runTicks_five hl h
    obtain ⟨hruns, hsel', hpc'⟩ := ih (runTicks 5 s) (hload.trans hl) hsel
    have hticks : runTicks (5 * (n + 1)) s = runTicks (5 * n) (runTicks 5 s) := by
      rw [Nat.mul_succ, Nat.add_comm, runTicks_add]
    rw [hticks]
    refine ⟨runs_succ (stepIsFiveTicks s hl h) hruns, hsel', hpc'.trans ?_⟩
    rw [hpc]
    bv_omega

end Sys2Proof.Machine
end

section
/-! PROOFS. 10_state.md sections 6 to 8, 40_pipeline_stages.md sections 2 and 8: what every tick keeps, what every step
keeps, and what is visible inside an instruction. -/

namespace Sys2Proof.Machine

open Sys2Proof

/-! ## What no tick changes -/

@[simp] theorem storeArm_ROM (s : State) : (storeArm s).ROM = s.ROM := by rw [storeArm_eq]
@[simp] theorem storeArm_romLoaded (s : State) : (storeArm s).romLoaded = s.romLoaded := by rw [storeArm_eq]

/-- No stage writes ROM. -/
@[simp] theorem stageCompute_ROM (x : Stage) (s : State) : (stageCompute x s).ROM = s.ROM := by
  cases x with
  | IF => simp only [stageCompute, fetchCompute]; split <;> rfl
  | DE => simp only [stageCompute, decodeCompute]; split <;> rfl
  | EX => simp only [stageCompute, executeCompute]; split <;> rfl
  | MEM => simp only [stageCompute, memoryCompute]; split_ifs <;> simp
  | WB => simp only [stageCompute, writeBackCompute]; split_ifs <;> rfl

@[simp] theorem stageCompute_romLoaded (x : Stage) (s : State) : (stageCompute x s).romLoaded = s.romLoaded := by
  cases x with
  | IF => simp only [stageCompute, fetchCompute]; split <;> rfl
  | DE => simp only [stageCompute, decodeCompute]; split <;> rfl
  | EX => simp only [stageCompute, executeCompute]; split <;> rfl
  | MEM => simp only [stageCompute, memoryCompute]; split_ifs <;> simp
  | WB => simp only [stageCompute, writeBackCompute]; split_ifs <;> rfl

/-- Only the MemoryAccess stage writes RAM. -/
theorem stageCompute_RAM {x : Stage} (hx : x ≠ .MEM) (s : State) : (stageCompute x s).RAM = s.RAM := by
  cases x with
  | IF => simp only [stageCompute, fetchCompute]; split <;> rfl
  | DE => simp only [stageCompute, decodeCompute]; split <;> rfl
  | EX => simp only [stageCompute, executeCompute]; split <;> rfl
  | MEM => contradiction
  | WB => simp only [stageCompute, writeBackCompute]; split_ifs <;> rfl

@[simp] theorem cycle_ROM (s : State) : (cycle s).ROM = s.ROM := by simp [cycle_eq]
@[simp] theorem cycle_romLoaded (s : State) : (cycle s).romLoaded = s.romLoaded := by simp [cycle_eq]

theorem cycle_RAM_of_ne {s : State} (h : s.sel ≠ .MEM) : (cycle s).RAM = s.RAM := by
  rw [cycle_eq, commitPhase_RAM, stageCompute_RAM h]

/-- What every tick keeps, any number of ticks keep. -/
theorem runTicks_induction {P : State → Prop} (hcycle : ∀ s, P s → P (cycle s)) (n : Nat) {s : State} (hs : P s) :
    P (runTicks n s) := by
  induction n generalizing s with
  | zero => exact hs
  | succ n ih => exact ih (hcycle s hs)

@[simp] theorem runTicks_ROM (n : Nat) (s : State) : (runTicks n s).ROM = s.ROM :=
  runTicks_induction (P := fun t => t.ROM = s.ROM) (fun t ht => (cycle_ROM t).trans ht) n rfl

@[simp] theorem runTicks_romLoaded (n : Nat) (s : State) : (runTicks n s).romLoaded = s.romLoaded :=
  runTicks_induction (P := fun t => t.romLoaded = s.romLoaded) (fun t ht => (cycle_romLoaded t).trans ht) n rfl

/-- A step is some number of ticks: what every tick keeps, every step keeps. -/
theorem exists_runTicks_of_step {s t : State} (h : step s = .next t) : ∃ n, t = runTicks n s := by
  cases hl : s.romLoaded with
  | false => rw [step_of_not_loaded hl] at h; contradiction
  | true =>
    by_cases hsel : s.sel = .IF
    · exact ⟨5, Host.Outcome.next.inj (h.symm.trans (stepIsFiveTicks s hl hsel))⟩
    · exact ⟨ticksInFlight s.sel, Host.Outcome.next.inj (h.symm.trans (step_of_inFlight hl hsel))⟩

/-- Settles O30: no stage and no bus write sets ROM or the launch flag, and a step is ticks. -/
theorem romConstant : Obligations.RomConstant := by
  refine fun s => ⟨⟨cycle_ROM s, cycle_romLoaded s⟩, fun t h => ?_, busWrite_ROM s⟩
  obtain ⟨n, rfl⟩ := exists_runTicks_of_step h
  exact ⟨runTicks_ROM n s, runTicks_romLoaded n s⟩

/-! ## The invariant (R26, R41, R145, R147, R181) -/

/-- Adding 4 keeps the two low bits. -/
theorem aligned_add_four {a : Word} (h : a.extractLsb' 0 2 = 0#2) : (a + 4#32).extractLsb' 0 2 = 0#2 := by
  have hlow := congrArg BitVec.toNat h
  apply BitVec.eq_of_toNat_eq
  simp only [BitVec.extractLsb'_toNat, BitVec.toNat_add, BitVec.toNat_ofNat, Nat.shiftRight_zero] at hlow ⊢
  omega

/-- The store arm keeps both arrays canonical. -/
theorem memoriesWf_storeArm {s : State} (h : MemoriesWf s) : MemoriesWf (storeArm s) := by
  unfold storeArm
  split_ifs
  · exact memoriesWf_busWrite h _ _ _
  · exact memoriesWf_busWrite h _ _ _
  · exact memoriesWf_busWrite h _ _ _
  · exact h

/-- The Decode tick latches the fields of one word with its class. -/
theorem decodeCellsMatch_latchDecode (imm : Word) (s : State) :
    DecodeCellsMatch (latchDecode (classOf (opcodeOf s.F.inst.value)) imm s) := by
  obtain ⟨halu, hstore, hload, hlui⟩ := classOf_flags (opcodeOf s.F.inst.value)
  exact ⟨rfl, rfl, rfl, rfl, rfl, halu, hstore, hload, hlui⟩

theorem DecodeCellsMatch.isAluOp {s : State} (h : DecodeCellsMatch s) :
    s.D.isAluOp.value = Machine.isAluOp s.D.opcode.value := by
  obtain ⟨-, -, -, -, -, halu, -⟩ := h
  exact halu

/-- The class flags of matching Decode cells exclude each other. -/
theorem DecodeCellsMatch.exclusive {s : State} (h : DecodeCellsMatch s) :
    atMostOne s.D.isAluOp.value s.D.isStore.value s.D.isLoad.value s.D.isLUI.value = true := by
  obtain ⟨-, -, -, -, -, halu, hstore, hload, hlui⟩ := h
  rw [halu, hstore, hload, hlui]
  exact atMostOne_classFlags _

/-- One tick keeps the invariant; which part it touches depends on the stage. -/
theorem inv_cycle {s : State} (h : Inv s) : Inv (cycle s) := by
  obtain ⟨hs, hpc, hmem, hdec, hE, hM⟩ := h
  refine ⟨settled_cycle s, ?_⟩
  cases hsel : s.sel with
  | IF =>
    rw [cycle_fetch hsel, fetched_of_settled hs]
    exact ⟨aligned_add_four hpc, hmem, hdec, hE, hM⟩
  | DE =>
    rw [cycle_decode hs hsel]
    exact ⟨hpc, hmem, decodeCellsMatch_latchDecode _ s, hE, hM⟩
  | EX =>
    rw [cycle_execute hs hsel (DecodeCellsMatch.isAluOp hdec)]
    exact ⟨hpc, hmem, hdec, DecodeCellsMatch.exclusive hdec, hM⟩
  | MEM =>
    rw [cycle_memory hs hsel]
    refine ⟨hpc, ⟨hmem.1, ?_⟩, hdec, hE, hE⟩
    split
    · exact (memoriesWf_storeArm hmem).2
    · exact hmem.2
  | WB =>
    rw [cycle_writeBack hs hsel]
    split <;> exact ⟨hpc, hmem, hdec, hE, hM⟩

/-- Settles O36: a tick ends with the commit of every cell, and stage by stage it keeps the rest. -/
theorem tickKeepsInvariant : Obligations.TickKeepsInvariant := fun s => ⟨settled_cycle s, inv_cycle⟩

/-- Settles O35: a step is ticks, and every tick keeps the invariant. -/
theorem stepKeepsInvariant : Obligations.StepKeepsInvariant := by
  intro s t hs h
  obtain ⟨n, rfl⟩ := exists_runTicks_of_step h
  exact runTicks_induction (P := Inv) (fun _ => inv_cycle) n hs

theorem settled_reset : Settled State.reset := by
  have hRF : State.reset.RF.map ClockedCell.commit = State.reset.RF := Vector.map_replicate
  unfold Settled commitPhase
  rw [hRF]
  rfl

/-- Settles O33: every cell is constructed settled, the arrays are empty, and the other parts are about closed values. -/
theorem resetInvariant : Obligations.ResetInvariant := ⟨settled_reset, by decide⟩

/-! ## Inside an instruction (R182) -/

theorem runTicks_succ (n : Nat) (s : State) : runTicks (n + 1) s = cycle (runTicks n s) := runTicks_add n 1 s

/-- The selector `n` ticks after a Fetch boundary. -/
theorem sel_runTicks {s : State} (h : s.sel = .IF) (n : Nat) : (runTicks n s).sel = nextStage^[n] .IF := by
  induction n with
  | zero => exact h
  | succ n ih => rw [runTicks_succ, cycle_sel, ih, Function.iterate_succ_apply']

theorem iterate_nextStage_ne_IF : ∀ n < 5, n ≠ 0 → nextStage^[n] .IF ≠ .IF := by decide
theorem iterate_nextStage_ne_MEM : ∀ n < 3, nextStage^[n] .IF ≠ .MEM := by decide
theorem iterate_nextStage_ne_WB : ∀ n < 4, nextStage^[n] .IF ≠ .WB := by decide
theorem add_ticksInFlight : ∀ n < 5, n ≠ 0 → n + ticksInFlight (nextStage^[n] .IF) = 5 := by decide

section MidInstruction

variable {s : State} (h : s.sel = .IF)

include h

/-- `pc` moves in the first tick and then holds. -/
theorem pc_runTicks {k : Nat} (h1 : 1 ≤ k) (h5 : k ≤ 5) : (runTicks k s).F.pc.value = s.F.pc.value + 4#32 := by
  induction k, h1 using Nat.le_induction with
  | base =>
    show (cycle s).F.pc.value = _
    rw [cycle_fetch h]; rfl
  | succ k hk ih =>
    have hsettled : Settled (runTicks k s) := by
      obtain ⟨j, rfl⟩ := Nat.exists_eq_add_of_le' hk
      rw [runTicks_succ]; exact settled_cycle _
    have hsel : (runTicks k s).sel ≠ .IF := by
      rw [sel_runTicks h]; exact iterate_nextStage_ne_IF k (by omega) (by omega)
    rw [runTicks_succ, cycle_F_of_ne hsettled hsel, ih (by omega)]

/-- RAM holds for three ticks. -/
theorem RAM_runTicks {k : Nat} (hk : k ≤ 3) : (runTicks k s).RAM = s.RAM := by
  induction k with
  | zero => rfl
  | succ k ih =>
    have hsel : (runTicks k s).sel ≠ .MEM := by rw [sel_runTicks h]; exact iterate_nextStage_ne_MEM k (by omega)
    rw [runTicks_succ, cycle_RAM_of_ne hsel, ih (by omega)]

/-- The registers hold for four ticks. -/
theorem RF_runTicks (hs : Settled s) {k : Nat} (hk : k ≤ 4) : (runTicks k s).RF = s.RF := by
  induction k with
  | zero => rfl
  | succ k ih =>
    have hsel : (runTicks k s).sel ≠ .WB := by rw [sel_runTicks h]; exact iterate_nextStage_ne_WB k (by omega)
    rw [runTicks_succ, cycle_RF_of_ne (settled_runTicks k hs) hsel, ih (by omega)]

/-- A step from inside the instruction ends where the instruction ends. -/
theorem step_runTicks (hl : s.romLoaded = true) {k : Nat} (h1 : 1 ≤ k) (h4 : k ≤ 4) :
    step (runTicks k s) = .next (runTicks 5 s) := by
  have hsel := sel_runTicks h k
  have hne : (runTicks k s).sel ≠ .IF := by rw [hsel]; exact iterate_nextStage_ne_IF k (by omega) (by omega)
  rw [step_of_inFlight ((runTicks_romLoaded k s).trans hl) hne, finishInFlight, hsel, ← runTicks_add,
    add_ticksInFlight k (by omega) (by omega)]

end MidInstruction

/-- Settles O42: by which stage the selector names in each of the five ticks. -/
theorem midInstruction : Obligations.MidInstruction := by
  intro s hs h
  have hWB : (runTicks 4 s).sel ≠ .MEM := by rw [sel_runTicks h]; decide
  have hRAM : (runTicks 5 s).RAM = (runTicks 4 s).RAM :=
    (congrArg State.RAM (runTicks_succ 4 s)).trans (cycle_RAM_of_ne hWB)
  exact ⟨fun k => pc_runTicks h, fun k => RAM_runTicks h, hRAM.symm, fun k hk => rfValue_congr (RF_runTicks h hs hk),
    fun hl k => step_runTicks h hl⟩

end Sys2Proof.Machine
end

section
/-! PROOFS. 40_pipeline_stages.md sections 4 to 6: the immediate the Decode tick takes, the Execute tick, and the arms of the
MemoryAccess tick. -/

namespace Sys2Proof.Machine

open Sys2Proof

/-! ## The immediate of the Decode tick (R148) -/

theorem imm32_cycle_decode {s : State} (hs : Settled s) (h : s.sel = .DE) :
    (cycle s).D.imm32.value = selectImm s.F.inst.value s.D.imm32.value := by
  rw [cycle_decode hs h]; rfl

section SelectImm

variable {w : Word} (held : Word)

theorem selectImm_of_store (h : classOf (opcodeOf w) = .store) : selectImm w held = immS w := by rw [selectImm, h]
theorem selectImm_of_alu (h : classOf (opcodeOf w) = .alu) : selectImm w held = immI w := by rw [selectImm, h]
theorem selectImm_of_load (h : classOf (opcodeOf w) = .load) : selectImm w held = immI w := by rw [selectImm, h]
theorem selectImm_of_lui (h : classOf (opcodeOf w) = .lui) : selectImm w held = immU w := by rw [selectImm, h]
theorem selectImm_of_noClass (h : classOf (opcodeOf w) = .noClass) : selectImm w held = held := by rw [selectImm, h]

end SelectImm

/-- Opcodes outside the five recognised ones are of no class (R108). -/
theorem classOf_eq_noClass : ∀ op : BitVec 7,
    op ∉ [0b0100011#7, 0b0110011#7, 0b0010011#7, 0b0000011#7, 0b0110111#7] → classOf op = .noClass := by decide

/-- Settles O16: the Decode tick latches `selectImm`, which goes by the class of the opcode. -/
theorem decodeTickImmediate : Obligations.DecodeTickImmediate := by
  intro s hs h w op imm32
  have himm : imm32 = selectImm w s.D.imm32.value := imm32_cycle_decode hs h
  refine ⟨fun hop => himm.trans ?store, fun hop => himm.trans ?iType, fun hop => himm.trans ?lui,
    fun hop => himm.trans ?held⟩
  case store => exact selectImm_of_store _ (congrArg classOf hop)
  case iType =>
    rcases hop with hop | hop | hop
    · exact selectImm_of_alu _ (congrArg classOf hop)
    · exact selectImm_of_alu _ (congrArg classOf hop)
    · exact selectImm_of_load _ (congrArg classOf hop)
  case lui => exact (selectImm_of_lui _ (congrArg classOf hop)).trans (immU_eq_upperImm w)
  case held => exact selectImm_of_noClass _ (classOf_eq_noClass op hop)

/-! ## The Execute tick (R150 to R153) -/

/-- Settles O17: the Execute stage sets its own cells, and the commit changes no cell of a settled stage. -/
theorem executeTick : Obligations.ExecuteTick := by
  intro s hs h op imm t
  have ht : t = { commitPhase (executeCompute s) with sel := .MEM } := by
    show cycle s = _
    rw [cycle_eq, h]; rfl
  rw [executeCompute, if_pos h] at ht
  rw [ht]
  exact ⟨rfl, rfl, rfl, rfl, rfl, rfl, rfl, rfl, rfl, rfl, hs.F, hs.D, hs.M, hs.RF, rfl, rfl⟩

/-! ## The arms of the MemoryAccess tick (R155 to R160) -/

/-- A settled cell is the cell constructed with its value. -/
theorem ClockedCell.init_value {α : Type} {c : ClockedCell α} (h : c.commit = c) : .init c.value = c := by
  obtain ⟨committed, staged⟩ := c
  have hcs : staged = committed := congrArg ClockedCell.committed h
  subst hcs; rfl

theorem atMostOne_true_third {a b d : Bool} (h : atMostOne a b true d = true) : a = false ∧ b = false ∧ d = false := by
  revert a b d; decide

section Arms

variable {s : State}

theorem storeArm_of_sb (h : s.E.funct3.value = 0#3) :
    storeArm s = busWrite s (memoryAddress s) (storeMask .byte s.E.rs2.value) .byte := by
  simp [storeArm, h]

theorem storeArm_of_sh (h : s.E.funct3.value = 1#3) :
    storeArm s = busWrite s (memoryAddress s) (storeMask .half s.E.rs2.value) .half := by
  simp [storeArm, h]

theorem storeArm_of_sw (h : s.E.funct3.value = 2#3) :
    storeArm s = busWrite s (memoryAddress s) (storeMask .word s.E.rs2.value) .word := by
  simp [storeArm, h]

/-- `funct3` 3 to 7 write nothing (D7). -/
theorem storeArm_of_unhandled (h : 2 < s.E.funct3.value.toNat) : storeArm s = s := by
  have hne {x : BitVec 3} (hx : x.toNat ≤ 2) : s.E.funct3.value ≠ x := fun he => by rw [he] at h; omega
  rw [storeArm, if_neg (hne (by decide)), if_neg (hne (by decide)), if_neg (hne (by decide))]

theorem loadArm_of_lb (h : s.E.funct3.value = 0#3) :
    loadArm s = some (sext8 (busRead s (memoryAddress s) .byte)) := by
  simp [loadArm, h]

theorem loadArm_of_lh (h : s.E.funct3.value = 1#3) :
    loadArm s = some (sext16 (busRead s (memoryAddress s) .half)) := by
  simp [loadArm, h]

/-- `funct3` 2 and 6 differ in the sign bit alone, which a word does not use (R256). -/
theorem loadArm_of_lw (h : s.E.funct3.value = 2#3 ∨ s.E.funct3.value = 6#3) :
    loadArm s = some (busRead s (memoryAddress s) .word) := by
  rcases h with h | h <;> simp [loadArm, h]

theorem loadArm_of_lbu (h : s.E.funct3.value = 4#3) : loadArm s = some (busRead s (memoryAddress s) .byte) := by
  simp [loadArm, h]

theorem loadArm_of_lhu (h : s.E.funct3.value = 5#3) : loadArm s = some (busRead s (memoryAddress s) .half) := by
  simp [loadArm, h]

/-- `funct3` 3 and 7 read nothing (D8). -/
theorem loadArm_of_unhandled (h : s.E.funct3.value = 3#3 ∨ s.E.funct3.value = 7#3) : loadArm s = none := by
  rcases h with h | h <;> simp [loadArm, h]

end Arms

section MemoryAccess

variable {s : State}

theorem memoryResult_of_isStore (h : s.E.isStore.value = true) : memoryResult s = none := by
  simp [memoryResult, h]

theorem memoryResult_of_isLoad (hst : s.E.isStore.value = false) (h : s.E.isLoad.value = true) :
    memoryResult s = loadArm s := by
  simp [memoryResult, hst, h]

theorem memoryResult_of_noClass (hst : s.E.isStore.value = false) (hld : s.E.isLoad.value = false)
    (hlui : s.E.isLUI.value = false) (halu : s.E.isAluOp.value = false) : memoryResult s = none := by
  simp [memoryResult, hst, hld, hlui, halu]

variable (hs : Settled s) (h : s.sel = .MEM)

include hs h

/-- RAM after the tick is the store arm's, or as before. -/
theorem RAM_cycle_memory : (cycle s).RAM = if s.E.isStore.value then (storeArm s).RAM else s.RAM := by
  rw [cycle_memory hs h]

theorem writebackValue_cycle_memory {v : Word} (hv : memoryResult s = some v) :
    (cycle s).M.writebackValue.value = v := by
  rw [cycle_memory hs h, hv]; rfl

/-- The cell holds where no arm sets it (D9). -/
theorem writebackValue_cycle_memory_held (hv : memoryResult s = none) :
    (cycle s).M.writebackValue = s.M.writebackValue := by
  rw [cycle_memory hs h, hv]
  exact ClockedCell.init_value (congrArg MemoryCells.writebackValue hs.M)

end MemoryAccess

/-- Settles O20: the flags select the arm, and `funct3` what the arm does. -/
theorem memoryTickAccess : Obligations.MemoryTickAccess := by
  intro s hs hexcl h a f3 v t
  have hRAM : t.RAM = _ := RAM_cycle_memory hs h
  obtain ⟨hE, -⟩ := hexcl
  refine ⟨fun hst => ?store, fun hld => ?load, fun hst hld hlui halu => ?noClass⟩
  case store =>
    rw [hst, if_pos rfl] at hRAM
    have hwrite {u : State} (hu : storeArm s = u) : t.RAM = u.RAM := hRAM.trans (congrArg State.RAM hu)
    exact ⟨writebackValue_cycle_memory_held hs h (memoryResult_of_isStore hst), fun h3 => hwrite (storeArm_of_sb h3),
      fun h3 => hwrite (storeArm_of_sh h3), fun h3 => hwrite (storeArm_of_sw h3),
      fun h3 => hwrite (storeArm_of_unhandled h3)⟩
  case load =>
    rw [hld] at hE
    obtain ⟨-, hst, -⟩ := atMostOne_true_third hE
    rw [hst, if_neg (by decide)] at hRAM
    have hres := memoryResult_of_isLoad hst hld
    have hv {x : Word} (hx : loadArm s = some x) : t.M.writebackValue.value = x :=
      writebackValue_cycle_memory hs h (hres.trans hx)
    exact ⟨hRAM, fun h3 => hv (loadArm_of_lb h3), fun h3 => hv (loadArm_of_lh h3), fun h3 => hv (loadArm_of_lw h3),
      fun h3 => hv (loadArm_of_lbu h3), fun h3 => hv (loadArm_of_lhu h3),
      fun h3 => writebackValue_cycle_memory_held hs h (hres.trans (loadArm_of_unhandled h3))⟩
  case noClass =>
    rw [hst, if_neg (by decide)] at hRAM
    exact ⟨writebackValue_cycle_memory_held hs h (memoryResult_of_noClass hst hld hlui halu), hRAM⟩

end Sys2Proof.Machine
end

section
/-! PROOFS. 20_memory.md sections 2, 3 and 6: the big-endian bytes of a word, what a device read and a device write do to
them, what is read back through the bus, and the aliases. -/

namespace Sys2Proof.Machine

open Sys2Proof

/-! ## The slices, byte by byte (R64 to R68)

Byte `k` of a word is bits `8 * (3 - k)` to `8 * (3 - k) + 7`, byte 0 the most significant. -/

theorem getLsbD_byteOf (w : Word) (k i : Nat) :
    (byteOf w k).getLsbD i = (decide (i < 8) && w.getLsbD (8 * (3 - k) + i)) := by
  rw [byteOf_eq_extract, BitVec.getLsbD_extractLsb']

theorem toNat_byteOf (w : Word) (k : Nat) : (byteOf w k).toNat = w.toNat / 2 ^ (8 * (3 - k)) % 256 := by
  rw [byteOf_eq_extract, BitVec.extractLsb'_toNat, Nat.shiftRight_eq_div_pow]

/-- The bits of the masks `0xFF` and `0xFFFF`. -/
theorem getLsbD_lowMask {n : Nat} (hn : n ≤ 32) (i : Nat) :
    (BitVec.ofNat 32 (2 ^ n - 1)).getLsbD i = decide (i < n) := by
  rw [BitVec.getLsbD_ofNat, Nat.testBit_two_pow_sub_one, ← Bool.decide_and]
  exact decide_eq_decide.2 ⟨fun h => h.2, fun h => ⟨by omega, h⟩⟩

/-- A byte read takes the byte at the offset. -/
theorem sliceRead_byte (d : Device) (o : BitVec 2) (w : Word) :
    sliceRead d o .byte w = (byteOf w o.toNat).setWidth 32 := by
  apply BitVec.eq_of_toNat_eq
  rw [toNat_sliceRead_byte, BitVec.toNat_setWidth_of_le (by decide), toNat_byteOf]

/-- The two even offsets of a half-word. -/
theorem even_offset {o : BitVec 2} (h : o.toNat % 2 = 0) : o = 0#2 ∨ o = 2#2 := by
  revert o; decide

/-- A half-word read at an even offset takes the byte there and the next one. -/
theorem sliceRead_half (d : Device) {o : BitVec 2} (h : o.toNat % 2 = 0) (w : Word) :
    sliceRead d o .half w = 0#16 ++ (byteOf w o.toNat ++ byteOf w (o.toNat + 1)) := by
  have hmask (i : Nat) : (0xFFFF#32).getLsbD i = decide (i < 16) := getLsbD_lowMask (n := 16) (by decide) i
  apply BitVec.eq_of_getLsbD_eq
  intro i hi
  rcases even_offset h with rfl | rfl
  case inl =>
    show (w >>> 16).getLsbD i = _
    simp only [BitVec.getLsbD_ushiftRight, BitVec.getLsbD_append, getLsbD_byteOf]
    grind
  case inr =>
    show (w &&& 0xFFFF#32).getLsbD i = _
    simp only [BitVec.getLsbD_and, BitVec.getLsbD_append, getLsbD_byteOf, hmask]
    grind

/-- A byte write replaces the byte at the offset (R67). -/
theorem byteOf_sliceWrite_byte (o : BitVec 2) (w v : Word) {k : Nat} (hk : k < 4) :
    byteOf (sliceWrite o .byte w v) k = if k = o.toNat then v.extractLsb' 0 8 else byteOf w k := by
  have ho := o.isLt
  have hmask (i : Nat) : (0xFF#32).getLsbD i = decide (i < 8) := getLsbD_lowMask (n := 8) (by decide) i
  apply BitVec.eq_of_getLsbD_eq
  intro i hi
  rw [getLsbD_byteOf]
  simp only [sliceWrite, BitVec.getLsbD_or, BitVec.getLsbD_and, BitVec.getLsbD_not, BitVec.getLsbD_shiftLeft, hmask]
  have hbit : 8 * (3 - k) + i < 32 := by omega
  split
  case isTrue h =>
    subst h
    simp [hi, hbit]
  case isFalse h =>
    have hout : 8 * (3 - k) + i < 8 * (3 - o.toNat) ∨ ¬(8 * (3 - k) + i - 8 * (3 - o.toNat) < 8) := by omega
    rw [getLsbD_byteOf]
    rcases hout with hout | hout <;> simp [hi, hbit, hout]

/-- A half-word write at an even offset replaces the byte there and the next one (R68). -/
theorem byteOf_sliceWrite_half {o : BitVec 2} (h : o.toNat % 2 = 0) (w v : Word) {k : Nat} (hk : k < 4) :
    byteOf (sliceWrite o .half w v) k =
      if k = o.toNat then v.extractLsb' 8 8 else if k = o.toNat + 1 then v.extractLsb' 0 8 else byteOf w k := by
  apply BitVec.eq_of_getLsbD_eq
  intro i hi
  rcases even_offset h with rfl | rfl <;> interval_cases k <;>
    simp only [sliceWrite, getLsbD_byteOf, if_true, BitVec.reduceEq, if_false, BitVec.getLsbD_append,
      BitVec.getLsbD_extractLsb'] <;> grind [getLsbD_byteOf]

/-! ## Device writes (section 2) -/

/-- Every word of RAM after a device write: the addressed one is rewritten, every other one holds. -/
theorem deviceWord_devWriteRam {s : State} (h : MemoriesWf s) (loc : BitVec 28) (v : Word) (wd : Width) (j : Nat) :
    deviceWord (devWriteRam s loc v wd) .ram j =
      if j = wordIndex .ram loc then sliceWrite (byteOffset loc) wd (deviceWord s .ram (wordIndex .ram loc)) v
      else deviceWord s .ram j := by
  simp only [devWriteRam, deviceWord_setRamWord s _ _ h (wordIndex_lt .ram loc), true_and]

/-- Settles O24: the write is the read-modify-write of one word, and the slice says which of its bytes it replaces. -/
theorem deviceWrites : Obligations.DeviceWrites := by
  intro s loc v h i o
  have ho : (byteOffset loc).toNat = o := toNat_byteOffset loc
  have hword (wd : Width) : deviceWord (devWriteRam s loc v wd) .ram i =
      sliceWrite (byteOffset loc) wd (deviceWord s .ram i) v := by
    rw [deviceWord_devWriteRam h, if_pos rfl]
  refine ⟨fun wd j hj => ?_, fun wd => rfl, fun k hk => ?_, fun heven k hk => ?_, hword .word⟩
  · rw [deviceWord_devWriteRam h, if_neg hj]
  · rw [hword, byteOf_sliceWrite_byte _ _ _ hk, ho]
  · rw [hword, byteOf_sliceWrite_half (ho ▸ heven) _ _ hk, ho]

/-! ## Addresses of one word (R61, R63)

Two addresses with the same `toNat / 4` name the same word of the same device; `toNat % 4` is the byte in it. -/

theorem toNat_byteOffset_localOf (a : Word) : (byteOffset (localOf a)).toNat = a.toNat % 4 := by
  rw [toNat_byteOffset, localOf, BitVec.extractLsb'_toNat, Nat.shiftRight_zero]
  omega

theorem byteOffset_localOf_even {a : Word} (h : a.toNat % 2 = 0) : (byteOffset (localOf a)).toNat % 2 = 0 := by
  rw [toNat_byteOffset_localOf]
  omega

theorem getLsbD_zero_eq_false_iff (a : Word) : a.getLsbD 0 = false ↔ a.toNat % 2 = 0 := by
  simp [BitVec.getLsbD]

section SameWord

variable {a b : Word} (h : a.toNat / 4 = b.toNat / 4)

include h

theorem route_congr : route a = route b := by
  have htop : a.extractLsb' 28 4 = b.extractLsb' 28 4 := by
    apply BitVec.eq_of_toNat_eq
    simp only [BitVec.extractLsb'_toNat, Nat.shiftRight_eq_div_pow]
    omega
  unfold route
  rw [htop]

theorem wordIndex_localOf_congr (d : Device) : wordIndex d (localOf a) = wordIndex d (localOf b) := by
  have hword : (localOf a).toNat / 4 = (localOf b).toNat / 4 := by
    simp only [localOf, BitVec.extractLsb'_toNat, Nat.shiftRight_zero]
    omega
  unfold wordIndex
  rw [hword]

theorem busRead_word_of_sameWord (s : State) : busRead s a .word = busRead s b .word :=
  busRead_word_congr s (route_congr h) (wordIndex_localOf_congr h)

theorem ramWordAt_congr : ramWordAt a = ramWordAt b := by
  rw [ramWordAt, ramWordAt, route_congr h, wordIndex_localOf_congr h]

end SameWord

/-- The next address after an even one is in the same word, one byte on. -/
theorem toNat_add_one_of_even {a : Word} (h : a.toNat % 2 = 0) : (a + 1#32).toNat = a.toNat + 1 := by
  have := a.isLt
  rw [BitVec.toNat_add, BitVec.toNat_ofNat]
  omega

/-! ## A narrow read is bytes of the word read (section 3) -/

theorem busRead_byte_eq (s : State) (a : Word) :
    busRead s a .byte = (byteOf (busRead s a .word) (a.toNat % 4)).setWidth 32 := by
  rw [← toNat_byteOffset_localOf]
  unfold busRead
  cases route a with
  | none => simp [byteOf]
  | some d => exact sliceRead_byte d _ _

theorem busRead_half_eq (s : State) {a : Word} (h : a.toNat % 2 = 0) :
    busRead s a .half =
      0#16 ++ (byteOf (busRead s a .word) (a.toNat % 4) ++ byteOf (busRead s a .word) (a.toNat % 4 + 1)) := by
  have ho := byteOffset_localOf_even h
  rw [← toNat_byteOffset_localOf]
  unfold busRead
  cases route a with
  | none => simp [byteOf]
  | some d => exact sliceRead_half d ho _

/-- The byte read at one of the four addresses of an aligned word is that byte of the word. -/
theorem setWidth_busRead_byte (s : State) {a : Word} (h : a.toNat % 4 = 0) {k : Nat} (hk : k < 4) :
    (busRead s (a + BitVec.ofNat 32 k) .byte).setWidth 8 = byteOf (busRead s a .word) k := by
  have := a.isLt
  have hadd : (a + BitVec.ofNat 32 k).toNat = a.toNat + k := by
    rw [BitVec.toNat_add, BitVec.toNat_ofNat]
    omega
  have hword : busRead s (a + BitVec.ofNat 32 k) .word = busRead s a .word :=
    busRead_word_of_sameWord (by omega) s
  have hoff : (a + BitVec.ofNat 32 k).toNat % 4 = k := by omega
  rw [busRead_byte_eq, hword, hoff, BitVec.setWidth_setWidth_of_le _ (by decide), BitVec.setWidth_eq]

theorem toNat_mod_four_of_aligned {a : Word} (h : a.extractLsb' 0 2 = 0#2) : a.toNat % 4 = 0 := by
  simpa using congrArg BitVec.toNat h

/-- Settles O25: the four bytes are those of the one word read, and the two half-words read two of them each. -/
theorem bigEndianView : Obligations.BigEndianView := by
  intro s a h b0 b1 b2 b3
  have ha := toNat_mod_four_of_aligned h
  have h0 : b0 = byteOf (busRead s a .word) 0 := by
    have := setWidth_busRead_byte s ha (k := 0) (by decide)
    rwa [BitVec.add_zero] at this
  have h1 : b1 = byteOf (busRead s a .word) 1 := setWidth_busRead_byte s ha (by decide)
  have h2 : b2 = byteOf (busRead s a .word) 2 := setWidth_busRead_byte s ha (by decide)
  have h3 : b3 = byteOf (busRead s a .word) 3 := setWidth_busRead_byte s ha (by decide)
  have htwo : (a + 2#32).toNat = a.toNat + 2 := by
    have := a.isLt
    rw [BitVec.toNat_add, BitVec.toNat_ofNat]
    omega
  rw [h0, h1, h2, h3]
  refine ⟨(wordOfBytes_byteOf _).symm, ?_, ?_⟩
  · rw [busRead_half_eq s (by omega), ha]
  · rw [busRead_half_eq s (by omega), busRead_word_of_sameWord (b := a) (by omega),
      show (a + 2#32).toNat % 4 = 2 by omega]

/-- Settles O38: the four bytes at an aligned `pc` are those of the fetched word. -/
theorem fetchedBytesDecode : Obligations.FetchedBytesDecode := by
  intro s h byteAt
  have hbyte {k : Nat} (hk : k < 4) : byteAt k = byteOf (fetchWord s) k :=
    setWidth_busRead_byte s (toNat_mod_four_of_aligned h) hk
  rw [hbyte (k := 0) (by decide), hbyte (k := 1) (by decide), hbyte (k := 2) (by decide), hbyte (k := 3) (by decide),
    decodeBytes, wordOfBytes_byteOf]

end Sys2Proof.Machine
end

section
/-! PROOFS. 20_memory.md sections 3 and 6: what a bus write leaves to be read through the bus, byte by byte, the aliases, and
the word that `withFetchWord` places. -/

namespace Sys2Proof.Machine

open Sys2Proof

/-! ## Aliases (R63, R72) -/

/-- A device access depends on the local address through the word index and the offset alone. -/
theorem devRead_congr {d : Device} {l l' : BitVec 28} (hi : wordIndex d l = wordIndex d l')
    (ho : byteOffset l = byteOffset l') (s : State) (wd : Width) : devRead s d l wd = devRead s d l' wd := by
  rw [devRead, devRead, hi, ho]

theorem devWriteRam_congr {l l' : BitVec 28} (hi : wordIndex .ram l = wordIndex .ram l')
    (ho : byteOffset l = byteOffset l') (s : State) (v : Word) (wd : Width) :
    devWriteRam s l v wd = devWriteRam s l' v wd := by
  rw [devWriteRam, devWriteRam, hi, ho]

/-- Bits 1:0 are the offset. -/
theorem byteOffset_localOf_of_mod {a b : Word} (h : a.toNat % 4 = b.toNat % 4) :
    byteOffset (localOf a) = byteOffset (localOf b) := by
  apply BitVec.eq_of_toNat_eq
  rw [toNat_byteOffset_localOf, toNat_byteOffset_localOf, h]

theorem wordIndex_rom_of_mod {a b : Word} (h : a.toNat % 2 ^ 20 = b.toNat % 2 ^ 20) :
    wordIndex .rom (localOf a) = wordIndex .rom (localOf b) := by
  simp only [wordIndex, localOf, Config.deviceWords, BitVec.extractLsb'_toNat, Nat.shiftRight_zero]
  omega

theorem wordIndex_ram_of_mod {a b : Word} (h : a.toNat % 2 ^ 22 = b.toNat % 2 ^ 22) :
    wordIndex .ram (localOf a) = wordIndex .ram (localOf b) := by
  simp only [wordIndex, localOf, Config.deviceWords, BitVec.extractLsb'_toNat, Nat.shiftRight_zero]
  omega

/-- Settles O27: the word index is masked to 18 bits in ROM and to 20 in RAM, and a device uses no other bit above the
offset. -/
theorem aliasing : Obligations.Aliasing := by
  intro s a b v wd
  refine ⟨fun ha hb hab => ?rom, fun ha hb hab => ?ram⟩
  case rom =>
    have hmod : a.toNat % 2 ^ 20 = b.toNat % 2 ^ 20 := by simpa using congrArg BitVec.toNat hab
    rw [busRead_of_route wd ((route_eq_rom_iff a).2 ha), busRead_of_route wd ((route_eq_rom_iff b).2 hb)]
    exact devRead_congr (wordIndex_rom_of_mod hmod) (byteOffset_localOf_of_mod (by omega)) s wd
  case ram =>
    have hmod : a.toNat % 2 ^ 22 = b.toNat % 2 ^ 22 := by simpa using congrArg BitVec.toNat hab
    have hra := (route_eq_ram_iff a).2 ha
    have hrb := (route_eq_ram_iff b).2 hb
    have hi := wordIndex_ram_of_mod hmod
    have ho := byteOffset_localOf_of_mod (a := a) (b := b) (by omega)
    rw [busRead_of_route wd hra, busRead_of_route wd hrb, busWrite_eq_devWriteRam v wd hra,
      busWrite_eq_devWriteRam v wd hrb]
    exact ⟨devRead_congr hi ho s wd, devWriteRam_congr hi ho s v wd⟩

/-! ## What is read after a bus write (R62, R67 to R69) -/

theorem isSome_ramWordAt_iff (a : Word) : (ramWordAt a).isSome = true ↔ route a = some .ram := by
  unfold ramWordAt
  split_ifs with h <;> simp [h]

theorem isSome_ramByteAt (a : Word) : (ramByteAt a).isSome = (ramWordAt a).isSome := by
  unfold ramByteAt ramWordAt
  split_ifs <;> simp

/-- A RAM byte is a RAM word and the place in it. -/
theorem ramByteAt_eq_iff {a : Word} (h : (ramWordAt a).isSome = true) (x : Word) :
    ramByteAt x = ramByteAt a ↔ ramWordAt x = ramWordAt a ∧ x.toNat % 4 = a.toNat % 4 := by
  have hr := (isSome_ramWordAt_iff a).1 h
  rw [← toNat_byteOffset_localOf, ← toNat_byteOffset_localOf, BitVec.toNat_inj]
  unfold ramByteAt ramWordAt
  rw [if_pos hr, if_pos hr]
  split_ifs <;> simp

/-- The word read at any address that names a RAM word is that word. -/
theorem busRead_word_of_ramWordAt {a x : Word} (h : (ramWordAt a).isSome = true) (hx : ramWordAt x = ramWordAt a)
    (s : State) : busRead s x .word = deviceWord s .ram (wordIndex .ram (localOf a)) := by
  have hrx : route x = some .ram := (isSome_ramWordAt_iff x).1 (hx ▸ h)
  have hi : wordIndex .ram (localOf x) = wordIndex .ram (localOf a) := by
    simpa [ramWordAt, hrx, (isSome_ramWordAt_iff a).1 h] using hx
  rw [busRead_of_route .word hrx, devRead_word, hi]

section Write

variable {s : State} (h : MemoriesWf s) (a v : Word)

include h

/-- The word read after a bus write of any width: in the aliases of the written word what the slice leaves of it, every
other word as before. -/
theorem busRead_word_busWrite (wd : Width) (x : Word) :
    busRead (busWrite s a v wd) x .word =
      if (ramWordAt a).isSome ∧ ramWordAt x = ramWordAt a then
        sliceWrite (byteOffset (localOf a)) wd (busRead s x .word) v
      else busRead s x .word := by
  rw [busRead_busWrite h]
  split
  case isTrue hx =>
    rw [busRead_word_of_ramWordAt hx.1 hx.2]; rfl
  case isFalse => rfl

/-- The byte read after a byte write: the written one in each of its aliases, every other as before. -/
theorem busRead_byte_busWrite_byte (x : Word) :
    busRead (busWrite s a v .byte) x .byte =
      if (ramByteAt a).isSome ∧ ramByteAt x = ramByteAt a then (v.extractLsb' 0 8).setWidth 32
      else busRead s x .byte := by
  rw [busRead_byte_eq, busRead_word_busWrite h, isSome_ramByteAt, busRead_byte_eq s x]
  by_cases ha : (ramWordAt a).isSome = true
  · simp only [ramByteAt_eq_iff ha]
    by_cases hx : ramWordAt x = ramWordAt a
    · rw [if_pos ⟨ha, hx⟩, byteOf_sliceWrite_byte _ _ _ (Nat.mod_lt _ (by decide)), toNat_byteOffset_localOf]
      simp only [ha, hx, true_and]
      split <;> rfl
    · simp [hx]
  · simp [ha]

/-- The byte read after a half-word write at an even address. -/
theorem busRead_byte_busWrite_half (heven : a.toNat % 2 = 0) (x : Word) :
    busRead (busWrite s a v .half) x .byte =
      if (ramByteAt a).isSome ∧ ramByteAt x = ramByteAt a then (v.extractLsb' 8 8).setWidth 32
      else if (ramByteAt a).isSome ∧ ramByteAt x = ramByteAt (a + 1#32) then (v.extractLsb' 0 8).setWidth 32
      else busRead s x .byte := by
  have hnext := toNat_add_one_of_even heven
  have hword : ramWordAt (a + 1#32) = ramWordAt a := ramWordAt_congr (by omega)
  have hoff := byteOffset_localOf_even heven
  rw [busRead_byte_eq, busRead_word_busWrite h, isSome_ramByteAt, busRead_byte_eq s x]
  by_cases ha : (ramWordAt a).isSome = true
  · have hnext4 : (a + 1#32).toNat % 4 = a.toNat % 4 + 1 := by omega
    simp only [ramByteAt_eq_iff ha, ramByteAt_eq_iff (hword ▸ ha), hword, hnext4]
    by_cases hx : ramWordAt x = ramWordAt a
    · rw [if_pos ⟨ha, hx⟩, byteOf_sliceWrite_half hoff _ _ (Nat.mod_lt _ (by decide)), toNat_byteOffset_localOf]
      simp only [ha, hx, true_and]
      split_ifs <;> rfl
    · simp [hx]
  · simp [ha]

end Write

/-- An even half-word written is read back. -/
theorem sliceRead_sliceWrite_half (d : Device) {o : BitVec 2} (h : o.toNat % 2 = 0) (w v : Word) :
    sliceRead d o .half (sliceWrite o .half w v) = (v.extractLsb' 0 16).setWidth 32 := by
  have ho := o.isLt
  rw [sliceRead_half d h, byteOf_sliceWrite_half h _ _ ho, byteOf_sliceWrite_half h _ _ (by omega), if_pos rfl,
    if_neg (by omega), if_pos rfl]
  apply BitVec.eq_of_getLsbD_eq
  intro i hi
  simp only [BitVec.getLsbD_append, BitVec.getLsbD_setWidth, BitVec.getLsbD_extractLsb']
  grind

/-- Settles O28: in RAM a byte and an even half-word write replace their own bytes alone, and a write of any width the one
word. -/
theorem storeThenLoad : Obligations.StoreThenLoad := by
  intro s a v h htop
  have ha : (ramWordAt a).isSome = true := (isSome_ramWordAt_iff a).2 ((route_eq_ram_iff a).2 htop)
  have hself (wd wd' : Width) : busRead (busWrite s a v wd) a wd' = _ :=
    (busRead_busWrite h a v wd a wd').trans (if_pos ⟨ha, rfl⟩)
  refine ⟨?_, fun heven => ?_, hself .word .word, fun b hb => ?_, fun heven b hb hb1 => ?_, fun wd b wd' hb => ?_⟩
  · rw [busRead_byte_busWrite_byte h, if_pos ⟨(isSome_ramByteAt a).trans ha, rfl⟩]
  · rw [hself]
    exact sliceRead_sliceWrite_half .ram (byteOffset_localOf_even ((getLsbD_zero_eq_false_iff a).1 heven)) _ v
  · rw [busRead_byte_busWrite_byte h, if_neg fun hc => hb hc.2]
  · rw [busRead_byte_busWrite_half h _ _ ((getLsbD_zero_eq_false_iff a).1 heven), if_neg fun hc => hb hc.2,
      if_neg fun hc => hb1 hc.2]
  · rw [busRead_busWrite h, if_neg fun hc => hb hc.2]

/-! ## The placed word (notes/assumptions/24.md) -/

/-- A placed word is due: the machine is loaded, at a Fetch boundary, and fetches it. -/
theorem placeWord_ready {s : State} (h : MemoriesWf s) (w : Word) :
    (placeWord s w).romLoaded = true ∧ (placeWord s w).sel = .IF ∧ fetchWord (placeWord s w) = w := by
  unfold placeWord
  split
  case h_1 hr =>
    refine ⟨rfl, rfl, ?_⟩
    show busRead _ s.F.pc.value .word = w
    rw [busRead_of_route .word hr]
    exact Memory.word_setWord_same .rom w h.1 (wordIndex_lt .rom _)
  case h_2 hr =>
    refine ⟨rfl, rfl, ?_⟩
    show busRead _ s.F.pc.value .word = w
    rw [busRead_of_route .word hr]
    exact Memory.word_setWord_same .ram w h.2 (wordIndex_lt .ram _)
  case h_3 hr =>
    refine ⟨rfl, rfl, ?_⟩
    show busRead _ Config.romBase .word = w
    rw [busRead_of_route (d := .rom) .word (by decide)]
    exact Memory.word_setWord_same .rom w h.1 (by decide)

/-- Settles O39: the placed word is the one the next Fetch tick reads. -/
theorem placedWordRuns : Obligations.PlacedWordRuns := by
  intro s nbits w h
  obtain ⟨hl, hsel, hw⟩ := placeWord_ready h (tableWord nbits w)
  unfold State.withFetchWord
  rw [step_of_fetch hl hsel, hw]

end Sys2Proof.Machine
end

section
/-! PROOFS. 70_reset_and_hazards.md sections 2 and 5, 10_state.md section 8: the state after reset, what `load` leaves, and
what a launch starts from. -/

namespace Sys2Proof.Machine

open Sys2Proof

/-! ## Reset (10_state.md R40) -/

theorem rfValue_reset (r : Reg) : rfValue State.reset r = 0#32 :=
  congrArg ClockedCell.value (Vector.getElem_replicate r.isLt)

theorem deviceWord_reset_ram (i : Nat) : deviceWord State.reset .ram i = 0#32 := by
  show wordOfBytes 0#8 0#8 0#8 0#8 = 0#32
  decide

/-- Settles O32: the cells are constructed with these values, and an array that lists nothing reads as its fill byte. -/
theorem resetState : Obligations.ResetState :=
  ⟨settled_reset, rfl, rfl, rfl,
    ⟨rfl, rfl, rfl, rfl, rfl, rfl, rfl, rfl, rfl, rfl, rfl, rfl, rfl⟩, ⟨rfl, rfl, rfl, rfl, rfl, rfl, rfl, rfl, rfl, rfl⟩,
    ⟨rfl, rfl, rfl, rfl, rfl, rfl⟩, rfValue_reset, rfl, fun i _ => deviceWord_reset_ram i, rfl,
    fun _ _ => rfl⟩

/-! ## The one load (R332, R340) -/

section Load

variable {s : State} {words : List Word}

theorem hostLoad_of_fits (hl : s.romLoaded = false) (h : words.length ≤ 262144) :
    hostLoad words s = .next { s with ROM := romImage 0 words, romLoaded := true } := by
  simp [hostLoad, hl, Config.deviceWords, h]

theorem hostLoad_of_too_long (hl : s.romLoaded = false) (h : 262144 < words.length) :
    hostLoad words s = .refused .loadTooLong := by
  simp [hostLoad, hl, Config.deviceWords, Nat.not_le.2 h]

theorem hostLoad_of_loaded (hl : s.romLoaded = true) : hostLoad words s = .refused .secondLoad := by
  simp [hostLoad, hl]

theorem wf_romImage (h : words.length ≤ 262144) : Memory.wf .rom (romImage 0 words) = true :=
  wfFrom_romImage (size := Config.deviceBytes .rom) 0 words (by simp only [Config.deviceBytes, Config.deviceWords]; omega)

end Load

/-- Settles O29: `load` leaves the image of the program, whose words `busRead_romImage` reads; the two refusals are its
tests. -/
theorem romAfterLoad : Obligations.RomAfterLoad := fun _ words =>
  ⟨fun hl h => ⟨_, hostLoad_of_fits hl h, rfl, wf_romImage h, fun _ hi => busRead_romImage words rfl rfl hi⟩,
    hostLoad_of_too_long, hostLoad_of_loaded⟩

/-! ## The launch (R344) -/

/-- RAM as the preset bus writes leave the reset RAM, made in order. -/
def presetMemory (writes : List (Word × Word × Width)) : Memory :=
  (writes.foldl (fun s w => busWrite s w.1 w.2.1 w.2.2) State.reset).RAM

theorem wf_presetMemory (writes : List (Word × Word × Width)) : Memory.wf .ram (presetMemory writes) = true := by
  have hreset : MemoriesWf State.reset := ⟨rfl, rfl⟩
  have h := (memoriesWf_presetRam hreset writes).2
  rwa [presetRam_eq_foldl] at h

/-- The state a launch starts from. -/
def launched (l : Launch) : State :=
  { State.reset with
    RF := l.registers.map ClockedCell.init
    M := { State.reset.M with writebackValue := .init l.writebackValue }
    ROM := romImage 0 l.words
    RAM := presetMemory l.ramWrites
    romLoaded := true }

/-- The preset writes change RAM alone, and what they leave in it depends on the reset RAM alone. -/
theorem launch_eq {l : Launch} (h : l.words.length ≤ 262144) : launch l = .next (launched l) := by
  rw [launch, hostLoad_of_fits rfl h]
  refine congrArg Host.Outcome.next ((presetRam_eq _ _).trans ?_)
  rw [presetRam_RAM_congr (s := State.reset), presetRam_eq_foldl]
  · rfl
  · rfl

theorem settled_launched (l : Launch) : Settled (launched l) := by
  have hRF : (l.registers.map ClockedCell.init).map ClockedCell.commit = l.registers.map ClockedCell.init := by
    rw [Vector.map_map]; rfl
  unfold Settled commitPhase launched
  rw [hRF]; rfl

/-- Everything of the invariant but the cells' values and the arrays is as after reset. -/
theorem inv_launched {l : Launch} (h : l.words.length ≤ 262144) : Inv (launched l) := by
  obtain ⟨-, hpc, -, hdec, hexcl⟩ := resetInvariant
  exact ⟨settled_launched l, hpc, ⟨wf_romImage h, wf_presetMemory l.ramWrites⟩, hdec, hexcl⟩

/-- Settles O34: the launch completes in `launched`, which has every preset in its place. -/
theorem launchState : Obligations.LaunchState := fun l h =>
  ⟨launched l, launch_eq h, inv_launched h, rfl, rfl, rfl,
    fun r => congrArg ClockedCell.value (Vector.getElem_map ClockedCell.init r.isLt), rfl, rfl,
    fun _ hi => busRead_romImage l.words rfl rfl hi, rfl⟩

end Sys2Proof.Machine
end

section
/-! PROOFS. 10_state.md section 2, 44_loads.md, 45_stores.md and 46_unrecognized.md, 20_memory.md section 4: register 0, the
loads that RV32I does not have or leaves open, the stores, and the words of no class, from a settled state. -/

namespace Sys2Proof.Machine

open Sys2Proof

/-! ## Register 0 (R22 to R24) -/

/-- Settles O12: the operand is guarded and the cell is not; ADDI retires its sum into any cell. -/
theorem registerZero : Obligations.RegisterZero := by
  refine fun s => ⟨rfl, fun r hr => operand_of_ne_zero s hr, fun _ => rfl, fun hs rs1 imm => ?_⟩
  obtain ⟨t, ht, hrd, -⟩ :=
    exists_writesRegister_of_retireAluImm (i := .addi 0#5 rs1 imm) hs (fun x => x + sext12 imm) rfl rfl
  exact ⟨t, ht, hrd, operand_zero t⟩

/-! ## The remaining loads -/

theorem byteOffset_localOf (a : Word) : byteOffset (localOf a) = a.extractLsb' 0 2 := by
  apply BitVec.eq_of_toNat_eq
  rw [toNat_byteOffset_localOf, BitVec.extractLsb'_toNat, Nat.shiftRight_zero]

theorem odd_offset {a : Word} (h : a.getLsbD 0 = true) : a.extractLsb' 0 2 ≠ 0#2 ∧ a.extractLsb' 0 2 ≠ 2#2 := by
  have h0 : (a.extractLsb' 0 2).getLsbD 0 = true := by simpa [BitVec.getLsbD_extractLsb'] using h
  revert h0
  generalize a.extractLsb' 0 2 = o
  revert o; decide

/-- A half-word read at an odd address is a free value of the containing word, or 0 where nothing answers (R73, R75). -/
theorem exists_busRead_half_odd (s : State) {a : Word} (h : a.getLsbD 0 = true) :
    ∃ v : BitVec 16,
      (∀ d, route a = some d → v = Config.halfOddRead d (a.extractLsb' 0 2) (busRead s a .word)) ∧
      (route a = none → v = 0#16) ∧ busRead s a .half = v.setWidth 32 := by
  obtain ⟨h0, h2⟩ := odd_offset h
  cases hr : route a with
  | none => exact ⟨0#16, by simp, fun _ => rfl, busRead_of_route_none .half hr⟩
  | some d =>
    refine ⟨Config.halfOddRead d (a.extractLsb' 0 2) (busRead s a .word), ?_, by simp, ?_⟩
    · rintro d' ⟨⟩; rfl
    · rw [busRead_of_route .half hr, busRead_of_route .word hr, devRead_word, devRead, byteOffset_localOf, sliceRead,
        if_neg h0, if_neg h2]

theorem sext16_setWidth (v : BitVec 16) : sext16 (v.setWidth 32) = v.signExtend 32 := by
  rw [sext16, BitVec.setWidth_setWidth_of_le v (by decide), BitVec.setWidth_eq]

theorem zext16_setWidth (v : BitVec 16) : zext16 (v.setWidth 32) = v.setWidth 32 := by
  rw [zext16, BitVec.setWidth_setWidth_of_le v (by decide), BitVec.setWidth_eq]

/-- Settles O52: LH and LHU retire the two extensions of the free value. -/
theorem halfWordLoadsOdd : Obligations.HalfWordLoadsOdd := by
  intro s rd rs1 imm hs a hodd
  obtain ⟨v, hsome, hnone, hread⟩ := exists_busRead_half_odd s hodd
  have hread' : busRead s (effectiveAddress s rs1 imm) .half = v.setWidth 32 := hread
  refine ⟨v, hsome, hnone, ?lh, ?lhu⟩
  case lh => exact exists_writesRegister_of_retireLoad hs sext16 rfl (by rw [hread', sext16_setWidth])
  case lhu => exact exists_writesRegister_of_retireLoad hs zext16 rfl (by rw [hread', zext16_setWidth])

/-- A load that retires the held `M.writebackValue` (D8). -/
theorem exists_writesRegister_of_retireLoad_held {s : State} (hs : Settled s) {i : Instr} {w : Word} {rd : Reg}
    (hexec : exec i s = .next (retireLoad rd (fetched w s).M.writebackValue.value (fetched w s))) :
    ∃ t, exec i s = .next t ∧ WritesRegister s t rd s.M.writebackValue.value := by
  rw [writebackValue_fetched hs] at hexec
  exact ⟨_, hexec, writesRegister_retireLoad hs w rd _⟩

/-! ## The stores (R270 to R274) -/

/-- The end of a store: the retirement with its bus write, the address and the value taken from the state before. -/
def stored (w a v : Word) (wd : Width) (s : State) : State := busWrite (retireStore (fetched w s)) a v wd

section Stored

variable {s : State} (hs : Settled s)

include hs

theorem writesNoRegister_stored (w a v : Word) (wd : Width) : WritesNoRegister s (stored w a v wd s) :=
  writesNoRegister_busWrite (writesNoRegister_retireStore hs w).1 a v wd

theorem holdsWritebackValue_stored (w a v : Word) (wd : Width) : HoldsWritebackValue s (stored w a v wd s) := by
  unfold HoldsWritebackValue stored
  rw [busWrite_M, retireStore_writebackValue, ClockedCell.value_init, writebackValue_fetched hs]

theorem exec_sb (rs1 rs2 : Reg) (imm : BitVec 12) :
    exec (.sb rs1 rs2 imm) s =
      .next (stored (encode (.sb rs1 rs2 imm)) (effectiveAddress s rs1 imm) (storeMask .byte (operand s rs2)) .byte s) := by
  rw [exec, execSb, effectiveAddress_fetched hs, operand_fetched hs, stored]

theorem exec_sh (rs1 rs2 : Reg) (imm : BitVec 12) :
    exec (.sh rs1 rs2 imm) s =
      .next (stored (encode (.sh rs1 rs2 imm)) (effectiveAddress s rs1 imm) (storeMask .half (operand s rs2)) .half s) := by
  rw [exec, execSh, effectiveAddress_fetched hs, operand_fetched hs, stored]

theorem exec_sw (rs1 rs2 : Reg) (imm : BitVec 12) :
    exec (.sw rs1 rs2 imm) s =
      .next (stored (encode (.sw rs1 rs2 imm)) (effectiveAddress s rs1 imm) (storeMask .word (operand s rs2)) .word s) := by
  rw [exec, execSw, effectiveAddress_fetched hs, operand_fetched hs, stored]

end Stored

/-- What the bus reads after a store is what it reads after the store's bus write alone. -/
theorem busRead_stored (s : State) (w a v : Word) (wd : Width) (x : Word) (wd' : Width) :
    busRead (stored w a v wd s) x wd' = busRead (busWrite s a v wd) x wd' := by
  have hRAM : (retireStore (fetched w s)).RAM = s.RAM := rfl
  exact busRead_congr (by simp) (busWrite_RAM_congr hRAM a v wd) (by simp) x wd'

/-- Settles O54: `funct3` 6 retires the word read, 3 and 7 the held value, and a store's retirement holds it. -/
theorem remainingLoads : Obligations.RemainingLoads := by
  intro s rd rs1 imm hs w held
  refine ⟨exists_writesRegister_of_retireLoad hs id rfl rfl, exists_writesRegister_of_retireLoad_held hs rfl,
    exists_writesRegister_of_retireLoad_held hs rfl, fun i hi t ht => ?_⟩
  simp only [List.mem_cons, List.not_mem_nil, or_false] at hi
  have hold {w a v : Word} {wd : Width} (h : exec i s = .next (stored w a v wd s)) : HoldsWritebackValue s t :=
    Host.Outcome.next.inj (h.symm.trans ht) ▸ holdsWritebackValue_stored hs w a v wd
  rcases hi with rfl | rfl | rfl
  · exact hold (exec_sb hs _ _ _)
  · exact hold (exec_sh hs _ _ _)
  · exact hold (exec_sw hs _ _ _)

theorem extract_storeMask_byte (v : Word) : (storeMask .byte v).extractLsb' 0 8 = v.extractLsb' 0 8 := by
  have hmask : (0xFF#32).extractLsb' 0 8 = BitVec.allOnes 8 := by decide
  rw [storeMask, BitVec.extractLsb'_and, hmask, BitVec.and_allOnes]

/-- Masking to 16 bits keeps every field below them. -/
theorem extract_storeMask_half (v : Word) {lo n : Nat} (hmask : (0xFFFF#32).extractLsb' lo n = BitVec.allOnes n) :
    (storeMask .half v).extractLsb' lo n = v.extractLsb' lo n := by
  rw [storeMask, BitVec.extractLsb'_and, hmask, BitVec.and_allOnes]

/-- Settles O55: `funct3` 0 decodes to SB, whose bus write replaces one byte. -/
theorem byteStore : Obligations.ByteStore := by
  intro s rs1 rs2 imm hs h a
  refine ⟨(decode_encodeS imm rs2 rs1 0#3).trans (by simp [decodeStore]), rfl, _, exec_sb hs rs1 rs2 imm,
    writesNoRegister_stored hs _ _ _ _, fun x => ?_⟩
  rw [busRead_stored, busRead_byte_busWrite_byte h, extract_storeMask_byte]

/-- Settles O56: `funct3` 1 decodes to SH, whose bus write at an even address replaces two bytes. -/
theorem halfWordStore : Obligations.HalfWordStore := by
  intro s rs1 rs2 imm hs h a
  refine ⟨(decode_encodeS imm rs2 rs1 1#3).trans (by simp [decodeStore]), rfl, fun heven =>
    ⟨_, exec_sh hs rs1 rs2 imm, writesNoRegister_stored hs _ _ _ _, fun x => ?_⟩⟩
  rw [busRead_stored, busRead_byte_busWrite_half h _ _ ((getLsbD_zero_eq_false_iff a).1 heven),
    extract_storeMask_half _ (by decide), extract_storeMask_half _ (by decide)]

/-- Settles O57: at an odd address the slice leaves the free word, and a bus write touches one word alone. -/
theorem halfWordStoreOdd : Obligations.HalfWordStoreOdd := by
  intro s rs1 rs2 imm hs h a hodd
  obtain ⟨h0, h2⟩ := odd_offset hodd
  refine ⟨_, exec_sh hs rs1 rs2 imm, writesNoRegister_stored hs _ _ _ _, fun x ha hx => ?_, fun x wd hx => ?_⟩
  · have hword : busRead s x .word = busRead s a .word :=
      (busRead_word_of_ramWordAt ha hx s).trans (busRead_word_of_ramWordAt ha rfl s).symm
    rw [busRead_stored, busRead_word_busWrite h, if_pos ⟨ha, hx⟩, hword, byteOffset_localOf, sliceWrite, if_neg h0,
      if_neg h2, extract_storeMask_half _ (by decide)]
  · rw [busRead_stored, busRead_busWrite h, if_neg hx]

/-- Settles O58: `funct3` 2 decodes to SW, whose bus write replaces the word, read back as its four bytes. -/
theorem wordStore : Obligations.WordStore := by
  intro s rs1 rs2 imm hs h a v
  refine ⟨(decode_encodeS imm rs2 rs1 2#3).trans (by simp [decodeStore]), rfl, _, exec_sw hs rs1 rs2 imm,
    writesNoRegister_stored hs _ _ _ _, fun x => ?_, fun ha => ?_⟩
  · rw [busRead_stored, busRead_busWrite h, apply_ite BitVec.toNat, toNat_sliceRead_byte, toNat_byteOffset_localOf]
    rfl
  · rw [busRead_stored, busRead_word_busWrite h, if_pos ⟨ha, rfl⟩]
    rfl

/-- Settles O59: each of the five is the retirement of a store with no bus write. -/
theorem unhandledStores : Obligations.UnhandledStores := by
  intro s rs1 rs2 imm hs i hi
  simp only [List.mem_cons, List.not_mem_nil, or_false] at hi
  rcases hi with rfl | rfl | rfl | rfl | rfl <;> exact ⟨_, rfl, writesNoRegister_retireStore hs _⟩

/-! ## The words of no class (R285) -/

/-- The frame of a word of no class, with its Decode cells: the immediate holds, the flags are false (R147, R148). -/
theorem frame_retireNoClass {s : State} (hs : Settled s) (w : Word) :
    let t := retireNoClass (fetched w s)
    WritesNoRegister s t ∧ HoldsWritebackValue s t ∧ MemoryUnchanged s t ∧ t.D.imm32.value = s.D.imm32.value ∧
      t.D.isAluOp.value = false ∧ t.D.isStore.value = false ∧ t.D.isLoad.value = false ∧ t.D.isLUI.value = false := by
  obtain ⟨hreg, hheld, hmem⟩ := writesNoRegister_retireNoClass hs w
  exact ⟨hreg, hheld, hmem, congrArg (fun c => c.imm32.value) hs.D, rfl, rfl, rfl, rfl⟩

/-- Settles O60: each of the seven rows is the retirement of no class. -/
theorem noClassIsNoOp : Obligations.NoClassIsNoOp := by
  intro s rest word hs i hi
  simp only [List.mem_cons, List.not_mem_nil, or_false] at hi
  rcases hi with rfl | rfl | rfl | rfl | rfl | rfl | rfl <;> exact ⟨_, rfl, frame_retireNoClass hs _⟩

end Sys2Proof.Machine
end
